-- ==== Sys2Proof/Word.lean ====
section
/-! DEFINITION. The machine's one datum size, the 16-bit word, and the byte of the program image.
00_scope.md R7: every datum is an unsigned integer of 16 bits; 20_memory.md R56: bytes exist in the
program image only. -/

namespace Sys2Proof

/-- A word: "a 16-bit unsigned storage unit; the machine's only datum size" (00_scope.md R10). -/
abbrev Word := BitVec 16

/-- A byte of the program image (70_reset_and_hazards.md R275). -/
abbrev Byte := BitVec 8

/-- The number of a register: the operand resolver hands out indices 0..7 only (10_state.md R22). -/
abbrev RegIndex := Fin 8

end Sys2Proof
end

