-- ==== Sys2Proof/Config.lean ====
section
/-! DEFINITION. The sizes the source fixes (00_scope.md R6) and the parameter it leaves open. -/

namespace Sys2Proof.Config

/-- `MOD`, the arithmetic modulus (R6). -/
def modulus : Nat := 32768

/-- `MEM_WORDS`, the number of memory cells; the addresses are 0..32767 (R6, 20_memory.md R50). -/
def memWords : Nat := 32768

/-- `REG_BASE`: register i is named by the operand word 32768 + i (R6). -/
def regBase : Nat := 32768

/-- The lowest invalid operand word (30_encoding.md R83). -/
def invalidBase : Nat := 32776

/-- `NOOP_FILL`: the value of every memory cell after reset (R6, 70_reset_and_hazards.md R271). -/
def noopFill : Word := 21

/-- `RESET_PC` (R6, 10_state.md R29). -/
def resetPc : Word := 0

/-- `STACK_CAP`: the greatest number of words the stack holds; `none` is "unbounded" (R6,
10_state.md R31). OPEN in the spec: the field `stackCap` of State carries it (log 5). -/
abbrev StackCap := Option Nat

/-- DESIGN CHOICE (log 5): the value of STACK_CAP at reset is the source's own, unbounded. -/
def resetStackCap : StackCap := none

end Sys2Proof.Config
end

