-- ==== Sys2Proof/Syntax.lean ====
section
/-! DEFINITION. Instructions as syntax: one constructor per row of spec/opcode_table.json
(30_encoding.md R86), operands in the order of their words in memory: a, b, c (R81). -/

namespace Sys2Proof

/-- An operand word in its class (30_encoding.md R83). Every 16-bit word is in exactly one class;
`Operand.wf` says which values a class holds. -/
inductive Operand where
  /-- A literal, 0..32767: its own value. -/
  | lit (v : Word)
  /-- A register reference, 32768 + i. -/
  | reg (i : RegIndex)
  /-- An invalid operand word, 32776..65535, kept as it stands in memory. -/
  | invalid (w : Word)
  deriving DecidableEq, Repr

/-- The role of an operand position (30_encoding.md R84): D (`dest`) or V (`value`). -/
inductive Role where
  | dest
  | value
  deriving DecidableEq, Repr

/-- The 22 instructions (30_encoding.md R86). `inp` and `outp` are the table's `in` and `out`. -/
inductive Instr where
  | halt
  | set (a b : Operand)
  | push (a : Operand)
  | pop (a : Operand)
  | eq (a b c : Operand)
  | gt (a b c : Operand)
  | jmp (a : Operand)
  | jt (a b : Operand)
  | jf (a b : Operand)
  | add (a b c : Operand)
  | mult (a b c : Operand)
  | mod (a b c : Operand)
  | and (a b c : Operand)
  | or (a b c : Operand)
  | not (a b : Operand)
  | rmem (a b : Operand)
  | wmem (a b : Operand)
  | call (a : Operand)
  | ret
  | outp (a : Operand)
  | inp (a : Operand)
  | noop
  deriving DecidableEq, Repr

end Sys2Proof
end

