-- ==== Sys2Proof/Machine/State.lean ====
section
/-! DEFINITION. The state as plain data (10_state.md R20), the reasons a step can stop, and reset. -/

namespace Sys2Proof.Machine

/-- One listed memory cell: a word address and the word it holds. The smallest addressable unit of
this machine is the 16-bit word (20_memory.md R51), so a cell holds a word (log 1). -/
abbrev WordCell := Nat × Word

/-- Memory as a list of cells in canonical form (`Memory.wf`); an address that is not listed reads as
21, the reset fill (10_state.md R34, R43). -/
abbrev Memory := List WordCell

/-- The six causes of a fatal fault (60_exceptions.md R231). A fatal fault of the hardware is a NEXT
state with `halted` and `fault` set (R236); it is not an outcome of the type `Fault` below (log 2). -/
inductive Cause where
  | decodeFault
  | stackEmpty
  | divideByZero
  | addressOutOfRange
  | operandFetchOutOfRange
  | stackOverflow
  deriving DecidableEq, Repr

/-- The fault record: cause, pc and opcode word of the faulting instruction (10_state.md R36). -/
structure FaultRecord where
  cause : Cause
  pc : Word
  opcode : Word
  deriving DecidableEq, Repr

/-- The state of the machine (10_state.md R20), and after it the model's own five fields for the
parameter STACK_CAP and for the IN, OUT and LOAD interfaces (00_scope.md R12; log 5, 6, 7, 10). -/
structure State where
  /-- `mem`, 32768 cells of one word (R34). -/
  mem : Memory
  /-- `reg[0]` to `reg[7]` (R21). -/
  reg : Vector Word 8
  /-- The stack, bottom first: the last element is the top (R30). -/
  stack : List Word
  /-- The program counter, a word address 0..65535 (R26). -/
  pc : Word
  /-- The halt flag (R35). -/
  halted : Bool
  /-- The fault record (R36). -/
  fault : Option FaultRecord
  /-- The parameter STACK_CAP (R31); no step changes it. -/
  stackCap : Config.StackCap
  /-- The words the input source has still to deliver, next word first (46_io.md R214). -/
  input : List Word
  /-- The words emitted since reset, oldest first (46_io.md R211). -/
  output : List Word
  /-- How many input words were consumed since reset (70_reset_and_hazards.md R280). -/
  consumed : Nat
  /-- Whether the one program-image load of the machine's life has happened (70_reset_and_hazards.md
  R272, R278). `loadImage` alone sets it; no step reads or writes it (log 10). -/
  loaded : Bool
  deriving DecidableEq, Repr

/-- Why there is no next state. Both reasons are the spec's own "no step", and both are safe: the model
claims no state where the machine takes none. -/
inductive Fault where
  /-- Raised by `step` only: a state with `halted` = true has no step (40_dispatch_and_operands.md
  R110). Safe (log 3). -/
  | halted
  /-- Raised by the meaning of `in` only: the input source has supplied no word, so there is no next
  state yet (R126, 46_io.md R215, R216). Safe (log 4). -/
  | inputWait
  deriving DecidableEq, Repr

/-- What the model refuses. No instruction is refused. -/
inductive Refusal where
  /-- Raised by an arm of `exec` that has no meaning yet; no arm of this model raises it. Safe. -/
  | notModelled (mnemonic : String)
  /-- Raised by `loadImage`: the program image has more than 32768 words (70_reset_and_hazards.md
  R277). Safe (log 10). -/
  | imageTooLong
  /-- Raised by `loadImage`: the machine has been loaded already or has made a step (R278). Safe
  (log 10). -/
  | loadNotFresh
  deriving DecidableEq, Repr

/-- What a step or a meaning answers. -/
abbrev Result := Host.Outcome State Fault Refusal

/-- The machine right after reset (10_state.md R43). The input source is empty and STACK_CAP is
unbounded until the host says otherwise (DESIGN CHOICE, log 5 and 7). -/
def State.reset : State where
  mem := []
  reg := Vector.replicate 8 0
  stack := []
  pc := Config.resetPc
  halted := false
  fault := none
  stackCap := Config.resetStackCap
  input := []
  output := []
  consumed := 0
  loaded := false

end Sys2Proof.Machine
end

