-- ==== Sys2Proof/Machine/Ops.lean ====
section
/-! DEFINITION. The named operations over memory, registers, stack and interfaces, and the two ways
an instruction ends without its effect: `raise` (60_exceptions.md R236) and `softSkip`
(40_dispatch_and_operands.md R121). The primitives are those of 00_scope.md R8. -/

namespace Sys2Proof.Machine

/-! Memory -/

/-- The canonical form: addresses strictly rising, no entry equal to the fill an unlisted address
reads as, every address one of 0..32767. -/
abbrev Memory.wf (m : Memory) : Prop :=
  m.Pairwise (fun c d => c.1 < d.1) ∧ ∀ c ∈ m, c.2 ≠ Config.noopFill ∧ c.1 < Config.memWords

/-- `MemRead(addr)` (20_memory.md R52). Its callers establish addr <= 32767 (R57). -/
def Memory.read : Memory → Nat → Word
  | [], _ => Config.noopFill
  | (b, w) :: m, a => if a = b then w else Memory.read m a

/-- `MemWrite(addr, v)` (20_memory.md R53), keeping the canonical form: writing the fill removes the
entry. Its callers establish addr <= 32767 (R57). -/
def Memory.write : Memory → Nat → Word → Memory
  | [], a, v => if v = Config.noopFill then [] else [(a, v)]
  | (b, w) :: m, a, v =>
    if a < b then (if v = Config.noopFill then (b, w) :: m else (a, v) :: (b, w) :: m)
    else if a = b then (if v = Config.noopFill then m else (a, v) :: m)
    else (b, w) :: Memory.write m a v

/-- Write consecutive cells from address k upward (70_reset_and_hazards.md R275). -/
def Memory.place (m : Memory) (k : Nat) : List Word → Memory
  | [] => m
  | w :: ws => Memory.place (m.write k w) (k + 1) ws

/-- Whether a cell of this address exists (20_memory.md R50). -/
def inMemory (a : Word) : Bool := decide (a.toNat < Config.memWords)

/-- The data read of `rmem`: nothing where no such cell exists (20_memory.md R57). -/
def State.load (s : State) (a : Word) : Option Word :=
  if inMemory a then some (s.mem.read a.toNat) else none

/-- The data write of `wmem`: nothing where no such cell exists (20_memory.md R57). -/
def State.store (s : State) (a v : Word) : Option State :=
  if inMemory a then some { s with mem := s.mem.write a.toNat v } else none

/-! Registers -/

/-- `reg[i]` (10_state.md R21): no register is hardwired (R23). -/
def State.readReg (s : State) (i : RegIndex) : Word := s.reg[i]

/-- `reg[i] <- v` (10_state.md R21): the full 16 bits are kept (R25). -/
def State.writeReg (s : State) (i : RegIndex) (v : Word) : State :=
  { s with reg := s.reg.set i.val v i.isLt }

/-! The program counter -/

/-- `pc <- pc + w`, w the width of the instruction (10_state.md R27, 40_dispatch_and_operands.md
R125). With pc <= 32767 the sum does not overflow (10_state.md R28). -/
def State.advance (s : State) (w : Nat) : State := { s with pc := s.pc + BitVec.ofNat 16 w }

/-- `pc <- target`, unreduced and unchecked (43_control_flow.md R176). -/
def State.jump (s : State) (target : Word) : State := { s with pc := target }

/-! The stack -/

/-- Whether the stack already holds STACK_CAP words (10_state.md R31). -/
def State.stackFull (s : State) : Bool :=
  match s.stackCap with
  | none => false
  | some n => decide (n ≤ s.stack.length)

/-- `Push(v)`: v becomes the last element; nothing if the stack is full (10_state.md R31). -/
def State.push (s : State) (v : Word) : Option State :=
  if s.stackFull then none else some { s with stack := s.stack ++ [v] }

/-- `Pop()`: the last element, removed; nothing if the stack is empty (10_state.md R32). -/
def State.pop (s : State) : Option (Word × State) :=
  match s.stack.getLast? with
  | none => none
  | some v => some (v, { s with stack := s.stack.dropLast })

/-! The character interfaces -/

/-- `Emit(v)`: v joins the output trace at its end (46_io.md R211). -/
def State.emit (s : State) (v : Word) : State := { s with output := s.output ++ [v] }

/-- `Receive()`: the next word of the input source, taken from it; nothing if there is none
(46_io.md R214, R215). -/
def State.receive (s : State) : Option (Word × State) :=
  match s.input with
  | [] => none
  | w :: ws => some (w, { s with input := ws, consumed := s.consumed + 1 })

/-! Ending without the instruction's effect -/

/-- `raise <Cause>(pc, op)`: the fault record and `halted` are set and nothing else changes
(60_exceptions.md R236). There is no return from it (R243). -/
def raise (c : Cause) (op : Word) (s : State) : Result :=
  .next { s with halted := true, fault := some ⟨c, s.pc, op⟩ }

/-- `SoftSkip` of an instruction with n operands: `pc <- pc + 1 + n` and nothing else
(40_dispatch_and_operands.md R121). -/
def softSkip (n : Nat) (s : State) : Result := .next (s.advance (1 + n))

/-! What the host sees -/

/-- The numeric code of a cause (60_exceptions.md R231). -/
def Cause.code : Cause → Nat
  | .decodeFault => 1
  | .stackEmpty => 2
  | .divideByZero => 3
  | .addressOutOfRange => 4
  | .operandFetchOutOfRange => 5
  | .stackOverflow => 6

/-- `fault.cause` as a code, 0 when there is no fault (60_exceptions.md R231). -/
def State.faultCode (s : State) : Nat :=
  match s.fault with
  | none => 0
  | some r => r.cause.code

/-- The STATUS interface: `halted` and `fault` (10_state.md R42). -/
def State.status (s : State) : Bool × Option FaultRecord := (s.halted, s.fault)

/-- The dispatcher's states in the source's words (10_state.md R37). -/
inductive Dispatcher where
  | running
  | halted
  | faulted
  deriving DecidableEq, Repr

/-- The dispatcher's state in terms of `halted` and `fault` (10_state.md R37). -/
def State.dispatcher (s : State) : Dispatcher :=
  if s.halted then (if s.fault.isSome then .faulted else .halted) else .running

end Sys2Proof.Machine
end

