-- ==== Sys2Proof/Machine/Operands.lean ====
section
/-! DEFINITION. The operand resolver (40_dispatch_and_operands.md R115 to R120) and, for each list of
roles that occurs in 30_encoding.md R84, one operation that resolves all the operands of an
instruction before it has any effect and soft-skips it if one fails (R121). -/

namespace Sys2Proof.Machine

/-- `Val(w)`: a literal is itself, a register reference the register's full content, one level deep;
an invalid word fails (40_dispatch_and_operands.md R118, R120). -/
def val (s : State) : Operand → Option Word
  | .lit v => some v
  | .reg i => some (s.readReg i)
  | .invalid _ => none

/-- `Dst(w)`: the register index of a register reference; a literal and an invalid word fail
(40_dispatch_and_operands.md R119). -/
def dst : Operand → Option RegIndex
  | .lit _ => none
  | .reg i => some i
  | .invalid _ => none

/-- Roles V: `push`, `jmp`, `call`, `out`. -/
def onV (a : Operand) (s : State) (k : Word → Result) : Result :=
  match val s a with
  | some x => k x
  | none => softSkip 1 s

/-- Roles D: `pop`, `in`. -/
def onD (a : Operand) (s : State) (k : RegIndex → Result) : Result :=
  match dst a with
  | some d => k d
  | none => softSkip 1 s

/-- Roles V V: `jt`, `jf`, `wmem`. -/
def onVV (a b : Operand) (s : State) (k : Word → Word → Result) : Result :=
  match val s a, val s b with
  | some x, some y => k x y
  | _, _ => softSkip 2 s

/-- Roles D V: `set`, `not`, `rmem`. -/
def onDV (a b : Operand) (s : State) (k : RegIndex → Word → Result) : Result :=
  match dst a, val s b with
  | some d, some x => k d x
  | _, _ => softSkip 2 s

/-- Roles D V V: `eq`, `gt`, `add`, `mult`, `mod`, `and`, `or`. -/
def onDVV (a b c : Operand) (s : State) (k : RegIndex → Word → Word → Result) : Result :=
  match dst a, val s b, val s c with
  | some d, some x, some y => k d x y
  | _, _, _ => softSkip 3 s

/-- The end of an instruction of width w that writes register d: the register, then the pc
(40_dispatch_and_operands.md R125). -/
def finishReg (s : State) (d : RegIndex) (v : Word) (w : Nat) : Result :=
  .next ((s.writeReg d v).advance w)

end Sys2Proof.Machine
end

