-- ==== Sys2Proof/Machine/Alu.lean ====
section
/-! DEFINITION. `add`, `mult`, `mod`, `and`, `or`, `not` (44_alu.md). Results are computed exactly on
natural numbers and then narrowed (R180). -/

namespace Sys2Proof.Machine

/-- Reduction of an exact result modulo 32768 (44_alu.md R180). -/
def reduce (n : Nat) : Word := BitVec.ofNat 16 (n % Config.modulus)

/-- (b + c) mod 32768 (R181). -/
def aluAdd (x y : Word) : Word := reduce (x.toNat + y.toNat)

/-- (b * c) mod 32768 (R182). -/
def aluMult (x y : Word) : Word := reduce (x.toNat * y.toNat)

/-- b mod c, the unsigned remainder, not reduced by 32768; nothing for the divisor 0 (R183). -/
def aluMod (x y : Word) : Option Word :=
  if y.toNat = 0 then none else some (BitVec.ofNat 16 (x.toNat % y.toNat))

/-- (b & c) mod 32768 (R184). -/
def aluAnd (x y : Word) : Word := reduce (x.toNat &&& y.toNat)

/-- (b | c) mod 32768 (R185). -/
def aluOr (x y : Word) : Word := reduce (x.toNat ||| y.toNat)

/-- (65535 - b) mod 32768 (R186): the complement is taken on 16 bits. -/
def aluNot (x : Word) : Word := reduce (65535 - x.toNat)

/-- `add a, b, c` (R181). -/
def execAdd (a b c : Operand) (s : State) : Result :=
  onDVV a b c s fun d x y => finishReg s d (aluAdd x y) 4

/-- `mult a, b, c` (R182). -/
def execMult (a b c : Operand) (s : State) : Result :=
  onDVV a b c s fun d x y => finishReg s d (aluMult x y) 4

/-- `mod a, b, c` (R183): DivideByZero for the divisor 0 (60_exceptions.md R237). -/
def execMod (a b c : Operand) (s : State) : Result :=
  onDVV a b c s fun d x y =>
    match aluMod x y with
    | some r => finishReg s d r 4
    | none => raise .divideByZero 11 s

/-- `and a, b, c` (R184). -/
def execAnd (a b c : Operand) (s : State) : Result :=
  onDVV a b c s fun d x y => finishReg s d (aluAnd x y) 4

/-- `or a, b, c` (R185). -/
def execOr (a b c : Operand) (s : State) : Result :=
  onDVV a b c s fun d x y => finishReg s d (aluOr x y) 4

/-- `not a, b` (R186). -/
def execNot (a b : Operand) (s : State) : Result :=
  onDV a b s fun d x => finishReg s d (aluNot x) 3

end Sys2Proof.Machine
end

