-- ==== Sys2Proof/Machine/Flags.lean ====
section
/-! DEFINITION. The machine has no flags (10_state.md R39): a comparison writes 1 or 0 into a general
register, and a conditional jump tests a value against zero. This file holds those two computations,
which stand in the place of flags. -/

namespace Sys2Proof.Machine

/-- The result of a comparison: exactly 1 or exactly 0 (42_compare.md R150). -/
def truthWord (p : Bool) : Word := if p then 1 else 0

/-- The test of `eq`: whole 16-bit words, unreduced (42_compare.md R150). -/
def equalWords (x y : Word) : Bool := x.toNat == y.toNat

/-- The test of `gt`: unsigned, whole 16-bit words (42_compare.md R151). -/
def greaterWord (x y : Word) : Bool := decide (y.toNat < x.toNat)

/-- The condition of `jt` and `jf`: any non-zero 16-bit value is true (43_control_flow.md R164). -/
def isNonZero (x : Word) : Bool := x.toNat != 0

end Sys2Proof.Machine
end

