-- ==== Sys2Proof/Machine/Compare.lean ====
section
/-! DEFINITION. `eq`, `gt` (42_compare.md). -/

namespace Sys2Proof.Machine

/-- `eq a, b, c` (R150). -/
def execEq (a b c : Operand) (s : State) : Result :=
  onDVV a b c s fun d x y => finishReg s d (truthWord (equalWords x y)) 4

/-- `gt a, b, c` (R151): b is the left side. -/
def execGt (a b c : Operand) (s : State) : Result :=
  onDVV a b c s fun d x y => finishReg s d (truthWord (greaterWord x y)) 4

end Sys2Proof.Machine
end

