-- ==== Sys2Proof/Machine/ControlFlow.lean ====
section
/-! DEFINITION. `halt`, `jmp`, `jt`, `jf`, `call`, `ret`, `noop` (43_control_flow.md). -/

namespace Sys2Proof.Machine

/-- `halt` (R160): the pc advances by 1 (the spec's decision D3, log 11). -/
def execHalt (s : State) : Result := .next ({ s with halted := true }.advance 1)

/-- `jmp a` (R162). -/
def execJmp (a : Operand) (s : State) : Result :=
  onV a s fun target => .next (s.jump target)

/-- `jt a, b` (R164): both operands are resolved before the test (40_dispatch_and_operands.md R115). -/
def execJt (a b : Operand) (s : State) : Result :=
  onVV a b s fun x target => .next (if isNonZero x then s.jump target else s.advance 3)

/-- `jf a, b` (R166). -/
def execJf (a b : Operand) (s : State) : Result :=
  onVV a b s fun x target => .next (if isNonZero x then s.advance 3 else s.jump target)

/-- `call a` (R168): the target is resolved before the push; StackOverflow on a full stack. -/
def execCall (a : Operand) (s : State) : Result :=
  onV a s fun target =>
    match s.push (s.pc + 2) with
    | some t => .next (t.jump target)
    | none => raise .stackOverflow 17 s

/-- `ret` (R170): StackEmpty on an empty stack. -/
def execRet (s : State) : Result :=
  match s.pop with
  | some (target, t) => .next (t.jump target)
  | none => raise .stackEmpty 18 s

/-- `noop` (R172). -/
def execNoop (s : State) : Result := .next (s.advance 1)

end Sys2Proof.Machine
end

