-- ==== Sys2Proof/Machine/InputOutput.lean ====
section
/-! DEFINITION. `out`, `in` (46_io.md). -/

namespace Sys2Proof.Machine

/-- `out a` (R210): one word, unreduced (R212). -/
def execOutp (a : Operand) (s : State) : Result :=
  onV a s fun x => .next ((s.emit x).advance 2)

/-- `in a` (R213): one word, unreduced. Without a word there is no next state (R215; at the end of
the input too, R216: the default of IN_EOF, log 4). -/
def execInp (a : Operand) (s : State) : Result :=
  onD a s fun d =>
    match s.receive with
    | some (w, t) => finishReg t d w 2
    | none => .fault .inputWait

end Sys2Proof.Machine
end

