-- ==== Sys2Proof/Machine/MemoryAccess.lean ====
section
/-! DEFINITION. `rmem`, `wmem` (45_memory_access.md). -/

namespace Sys2Proof.Machine

/-- `rmem a, b` (R200): b is the address; AddressOutOfRange above 32767 (60_exceptions.md R238). -/
def execRmem (a b : Operand) (s : State) : Result :=
  onDV a b s fun d x =>
    match s.load x with
    | some v => finishReg s d v 3
    | none => raise .addressOutOfRange 15 s

/-- `wmem a, b` (R201): a is the address; AddressOutOfRange above 32767 (60_exceptions.md R238). -/
def execWmem (a b : Operand) (s : State) : Result :=
  onVV a b s fun x y =>
    match s.store x y with
    | some t => .next (t.advance 3)
    | none => raise .addressOutOfRange 16 s

end Sys2Proof.Machine
end

