-- ==== Sys2Proof/Machine/MoveStack.lean ====
section
/-! DEFINITION. `set`, `push`, `pop` (41_move_and_stack.md). -/

namespace Sys2Proof.Machine

/-- `set a, b` (R140). -/
def execSet (a b : Operand) (s : State) : Result :=
  onDV a b s fun d x => finishReg s d x 3

/-- `push a` (R141): StackOverflow on a full stack (60_exceptions.md R235). -/
def execPush (a : Operand) (s : State) : Result :=
  onV a s fun x =>
    match s.push x with
    | some t => .next (t.advance 2)
    | none => raise .stackOverflow 2 s

/-- `pop a` (R142): StackEmpty on an empty stack (60_exceptions.md R233), after the destination is
resolved (40_dispatch_and_operands.md R123). -/
def execPop (a : Operand) (s : State) : Result :=
  onD a s fun d =>
    match s.pop with
    | some (v, t) => finishReg t d v 2
    | none => raise .stackEmpty 3 s

end Sys2Proof.Machine
end

