-- ==== Sys2Proof/WellFormed.lean ====
section
/-! DEFINITION. Which operand and instruction terms stand for words in memory: a literal holds
0..32767 and an invalid operand 32776..65535 (30_encoding.md R83). A register reference is in range
by its type. An operand of the WRONG ROLE (a literal as destination) is well formed: it is a word the
machine gives a meaning, the soft skip (R88). -/

namespace Sys2Proof

/-- The value ranges of the three classes of operand words (30_encoding.md R83). -/
def Operand.wf : Operand → Bool
  | .lit v => decide (v.toNat ≤ 32767)
  | .reg _ => true
  | .invalid w => decide (32776 ≤ w.toNat)

/-- An instruction is well formed when each of its operands is. -/
def Instr.wf : Instr → Bool
  | .halt => true
  | .set a b => a.wf && b.wf
  | .push a => a.wf
  | .pop a => a.wf
  | .eq a b c => a.wf && b.wf && c.wf
  | .gt a b c => a.wf && b.wf && c.wf
  | .jmp a => a.wf
  | .jt a b => a.wf && b.wf
  | .jf a b => a.wf && b.wf
  | .add a b c => a.wf && b.wf && c.wf
  | .mult a b c => a.wf && b.wf && c.wf
  | .mod a b c => a.wf && b.wf && c.wf
  | .and a b c => a.wf && b.wf && c.wf
  | .or a b c => a.wf && b.wf && c.wf
  | .not a b => a.wf && b.wf
  | .rmem a b => a.wf && b.wf
  | .wmem a b => a.wf && b.wf
  | .call a => a.wf
  | .ret => true
  | .outp a => a.wf
  | .inp a => a.wf
  | .noop => true

end Sys2Proof
end

