-- ==== Sys2Proof/Decode.lean ====
section
/-! DEFINITION. The decoder, total on any words, and after it the encoder, both from the opcode map
of 30_encoding.md R86 and the operand classes of R83. The machine fetches words (20_memory.md R51),
so the decoder reads words; the bytes of a program image become words when the image is loaded. -/

namespace Sys2Proof

/-- Classification of a raw operand word (30_encoding.md R83). The three ranges cover all words. -/
def classify (w : Word) : Operand :=
  if w.toNat < Config.regBase then .lit w
  else if w.toNat < Config.invalidBase then .reg (Fin.ofNat 8 (w.toNat - Config.regBase))
  else .invalid w

/-- What an opcode word selects: one of the four formats F0 to F3 (30_encoding.md R81), with the
instruction its operands complete. -/
inductive Shape where
  | f0 (i : Instr)
  | f1 (mk : Operand → Instr)
  | f2 (mk : Operand → Operand → Instr)
  | f3 (mk : Operand → Operand → Operand → Instr)

/-- The operand count n of a format (30_encoding.md R80, R81). -/
def Shape.arity : Shape → Nat
  | .f0 _ => 0
  | .f1 _ => 1
  | .f2 _ => 2
  | .f3 _ => 3

/-- The instruction made of the operand words raw(1), raw(2), raw(3) (00_scope.md R8): operand a is
the first operand word (30_encoding.md R81). -/
def Shape.build (raw : Nat → Word) : Shape → Instr
  | .f0 i => i
  | .f1 mk => mk (classify (raw 1))
  | .f2 mk => mk (classify (raw 1)) (classify (raw 2))
  | .f3 mk => mk (classify (raw 1)) (classify (raw 2)) (classify (raw 3))

/-- The opcode map, one row per instruction (30_encoding.md R86). -/
def opcodeMap : List (Nat × Shape) :=
  [ (0, .f0 .halt), (1, .f2 .set), (2, .f1 .push), (3, .f1 .pop), (4, .f3 .eq), (5, .f3 .gt) ] ++
  [ (6, .f1 .jmp), (7, .f2 .jt), (8, .f2 .jf), (9, .f3 .add), (10, .f3 .mult), (11, .f3 .mod) ] ++
  [ (12, .f3 .and), (13, .f3 .or), (14, .f2 .not), (15, .f2 .rmem), (16, .f2 .wmem) ] ++
  [ (17, .f1 .call), (18, .f0 .ret), (19, .f1 .outp), (20, .f1 .inp), (21, .f0 .noop) ]

/-- The row of an opcode word. The whole word is compared (30_encoding.md R82); a word of no row is
illegal (R87). -/
def lookupOpcode (op : Word) : Option Shape :=
  (opcodeMap.find? fun row => row.1 == op.toNat).map (·.2)

/-- Why a list of words is no instruction. -/
inductive Reject where
  /-- There is no word at all. -/
  | noWord
  /-- The opcode word is 22 or more (30_encoding.md R87). -/
  | illegalOpcode (op : Word)
  /-- There are fewer operand words than the opcode has operands. -/
  | missingOperand (op : Word)
  deriving DecidableEq, Repr

/-- Decode the first instruction of a list of words and give back the words after it
(30_encoding.md R80, R86: the last paragraph of section 3). -/
def decode : List Word → Except Reject (Instr × List Word)
  | [] => .error .noWord
  | op :: ws =>
    match lookupOpcode op with
    | none => .error (.illegalOpcode op)
    | some sh =>
      if ws.length < sh.arity then .error (.missingOperand op)
      else .ok (sh.build fun k => ws.getD (k - 1) 0, ws.drop sh.arity)

/-- The raw word of an operand (30_encoding.md R83). -/
def Operand.word : Operand → Word
  | .lit v => v
  | .reg i => BitVec.ofNat 16 (Config.regBase + i.val)
  | .invalid w => w

/-- The words of an instruction: the opcode word, then the operand words in ascending cells
(30_encoding.md R80, R81, R86). -/
def encode : Instr → List Word
  | .halt => [0]
  | .set a b => [1, a.word, b.word]
  | .push a => [2, a.word]
  | .pop a => [3, a.word]
  | .eq a b c => [4, a.word, b.word, c.word]
  | .gt a b c => [5, a.word, b.word, c.word]
  | .jmp a => [6, a.word]
  | .jt a b => [7, a.word, b.word]
  | .jf a b => [8, a.word, b.word]
  | .add a b c => [9, a.word, b.word, c.word]
  | .mult a b c => [10, a.word, b.word, c.word]
  | .mod a b c => [11, a.word, b.word, c.word]
  | .and a b c => [12, a.word, b.word, c.word]
  | .or a b c => [13, a.word, b.word, c.word]
  | .not a b => [14, a.word, b.word]
  | .rmem a b => [15, a.word, b.word]
  | .wmem a b => [16, a.word, b.word]
  | .call a => [17, a.word]
  | .ret => [18]
  | .outp a => [19, a.word]
  | .inp a => [20, a.word]
  | .noop => [21]

/-- The operands of an instruction in memory order, each with its role (30_encoding.md R84). -/
def Instr.operands : Instr → List (Role × Operand)
  | .halt => []
  | .set a b => [(.dest, a), (.value, b)]
  | .push a => [(.value, a)]
  | .pop a => [(.dest, a)]
  | .eq a b c => [(.dest, a), (.value, b), (.value, c)]
  | .gt a b c => [(.dest, a), (.value, b), (.value, c)]
  | .jmp a => [(.value, a)]
  | .jt a b => [(.value, a), (.value, b)]
  | .jf a b => [(.value, a), (.value, b)]
  | .add a b c => [(.dest, a), (.value, b), (.value, c)]
  | .mult a b c => [(.dest, a), (.value, b), (.value, c)]
  | .mod a b c => [(.dest, a), (.value, b), (.value, c)]
  | .and a b c => [(.dest, a), (.value, b), (.value, c)]
  | .or a b c => [(.dest, a), (.value, b), (.value, c)]
  | .not a b => [(.dest, a), (.value, b)]
  | .rmem a b => [(.dest, a), (.value, b)]
  | .wmem a b => [(.value, a), (.value, b)]
  | .call a => [(.value, a)]
  | .ret => []
  | .outp a => [(.value, a)]
  | .inp a => [(.dest, a)]
  | .noop => []

/-- The width in words, 1 + operand count (30_encoding.md R80). -/
def Instr.width (i : Instr) : Nat := 1 + i.operands.length

/-- Whether an operand word can be resolved in a role (30_encoding.md R88): a value position takes a
literal or a register reference, a destination position a register reference only. -/
def Operand.fits : Role → Operand → Bool
  | .value, .lit _ => true
  | .value, .reg _ => true
  | .value, .invalid _ => false
  | .dest, .lit _ => false
  | .dest, .reg _ => true
  | .dest, .invalid _ => false

/-- Every operand can be resolved in its role, so the instruction is no soft skip
(40_dispatch_and_operands.md R121). -/
def Instr.resolvable (i : Instr) : Bool := i.operands.all fun p => p.2.fits p.1

/-- The little-endian byte pairs of a program image as words; a trailing unpaired byte is discarded
(20_memory.md R56, 70_reset_and_hazards.md R275). -/
def wordsOfBytes : List Byte → List Word
  | lo :: hi :: rest => BitVec.ofNat 16 (lo.toNat + 256 * hi.toNat) :: wordsOfBytes rest
  | [_] => []
  | [] => []

/-- The four words of an instruction whose bits are numbered as spec/opcode_table.json numbers them:
bit 0 is the least significant bit of the first word; the bits above `nbits` are 0. -/
def tableWords (nbits w : Nat) : List Word :=
  (List.range 4).map fun k => BitVec.ofNat 16 ((w % 2 ^ nbits) / 2 ^ (16 * k))

/-- The instruction the decoder reads from a table word; `none` where it refuses. -/
def decodeTableWord (nbits w : Nat) : Option Instr :=
  match decode (tableWords nbits w) with
  | .ok (i, _) => some i
  | .error _ => none

end Sys2Proof
end

