-- ==== Sys2Proof/Machine/Fetch.lean ====
section
/-! DEFINITION. The phases of a step before the execution: halt guard, opcode fetch and decode,
operand fetch (40_dispatch_and_operands.md R111 to R114). -/

namespace Sys2Proof.Machine

/-- What the fetch phases of a step find. -/
inductive Fetched where
  /-- The pc is above 32767 and no cell is read: the halt guard (R111). -/
  | outside
  /-- A fatal fault of the fetch phases, and the opcode word (R112, R114). -/
  | failed (c : Cause) (op : Word)
  /-- An instruction, with all its operand words fetched raw (R113). -/
  | instr (i : Instr)
  deriving DecidableEq, Repr

/-- The fetch phases in their order (R126): guard, opcode word, legal or not, operand words inside
memory or not, operand words. -/
def fetch (s : State) : Fetched :=
  if s.pc.toNat > 32767 then .outside
  else
    match lookupOpcode (s.mem.read s.pc.toNat) with
    | none => .failed .decodeFault (s.mem.read s.pc.toNat)
    | some sh =>
      if s.pc.toNat + sh.arity > 32767 then
        .failed .operandFetchOutOfRange (s.mem.read s.pc.toNat)
      else .instr (sh.build fun k => s.mem.read (s.pc.toNat + k))

/-- The halt guard's effect: `halted` and nothing else (R111; the spec's decision D5, log 14). -/
def haltGuard (s : State) : Result := .next { s with halted := true }

/-- Store the four words of an instruction where the next one is fetched, at the pc and after it; a
word whose cell would lie above 32767 is left out, since no such cell exists. -/
def placeAtPc (s : State) (ws : List Word) : State :=
  { s with mem := s.mem.place s.pc.toNat (ws.take (Config.memWords - s.pc.toNat)) }

end Sys2Proof.Machine
end

