-- ==== Sys2Proof/Machine/Step.lean ====
section
/-! DEFINITION. One step of the machine (40_dispatch_and_operands.md R126). -/

namespace Sys2Proof.Machine

/-- `Step(s)`: a state with `halted` = true has no step (R110); otherwise the fetch phases, and then
the halt guard, a fatal fault of those phases, or the instruction. -/
def step (s : State) : Host.Outcome State Fault Refusal :=
  if s.halted then .fault .halted
  else
    match fetch s with
    | .outside => haltGuard s
    | .failed c op => raise c op s
    | .instr i => exec i s

/-- The state with the instruction of a table word stored where the next instruction is fetched
(log 9: it stands for the program load). -/
def State.withFetchWord (s : State) (nbits w : Nat) : State := placeAtPc s (tableWords nbits w)

end Sys2Proof.Machine
end

