-- ==== Sys2Proof/Machine/HostInterface.lean ====
section
/-! DEFINITION. What the host does to the machine: creation, program load, input
(10_state.md R42, 70_reset_and_hazards.md R270 to R278, 46_io.md R214). None of it is a step. -/

namespace Sys2Proof.Machine

/-- Reset with the parameter STACK_CAP and the input source the host attaches for the new run
(70_reset_and_hazards.md R270). -/
def State.create (cap : Config.StackCap) (input : List Word) : State :=
  { State.reset with stackCap := cap, input := input }

/-- The machine has been reset, has not been loaded and has made no step, so the program image may be
loaded (R278). The first step of a machine that was never loaded runs the `noop` at address 0 and moves
the pc, and no later step brings it back (log 10). -/
def State.fresh (s : State) : Bool := decide (s = State.create s.stackCap s.input)

/-- The program-image load: words from address 0 upward, memory only (R275, R278), and the record that
the one load has happened (R272); an image of more than 32768 words is refused (R277), and so is a
second load and a load into a machine that has run (R278). -/
def loadImage (image : List Byte) (s : State) : Result :=
  if s.fresh then
    if image.length / 2 > Config.memWords then .refused .imageTooLong
    else .next { s with mem := s.mem.place 0 (wordsOfBytes image), loaded := true }
  else .refused .loadNotFresh

/-- The host supplies one more input word, after those it supplied before (46_io.md R214). -/
def State.supply (s : State) (w : Word) : State := { s with input := s.input ++ [w] }

end Sys2Proof.Machine
end

