-- ==== Sys2Proof/Safety.lean ====
section
/-! DEFINITION. What counts as a proper state, in the terms the statements use. -/

namespace Sys2Proof

open Machine

/-- The fault record tells the truth about the state it stands in: the run is over, the record's pc
and opcode word are those of the instruction the pc is left at (60_exceptions.md R236), and the cause
is one that this opcode word raises, in the condition that raises it (R231). -/
def FaultRecordFits (r : FaultRecord) (s : State) : Prop :=
  s.halted = true ∧ r.pc = s.pc ∧ s.pc.toNat ≤ 32767 ∧ r.opcode = s.mem.read s.pc.toNat ∧
  match r.cause with
  | .decodeFault => 21 < r.opcode.toNat
  | .stackEmpty => (r.opcode = 3 ∨ r.opcode = 18) ∧ s.stack = []
  | .divideByZero => r.opcode = 11
  | .addressOutOfRange => r.opcode = 15 ∨ r.opcode = 16
  | .operandFetchOutOfRange =>
    ∃ sh, lookupOpcode r.opcode = some sh ∧ 32767 < s.pc.toNat + sh.arity
  | .stackOverflow => (r.opcode = 2 ∨ r.opcode = 17) ∧ s.stackCap = some s.stack.length

/-- A proper state: memory in canonical form, no more words on the stack than STACK_CAP allows
(10_state.md R31), and a fault record only in a state it fits; in particular `halted` = false with a
record never occurs (10_state.md R37). -/
def Proper (s : State) : Prop :=
  s.mem.wf ∧ (∀ n, s.stackCap = some n → s.stack.length ≤ n) ∧
  ∀ r, s.fault = some r → FaultRecordFits r s

end Sys2Proof
end

