-- ==== Sys2Proof/Certificates/Slice0/Obligations.lean ====
section
/-! DEFINITION. The statements about this model for the provers. Where a statement rests on a decision
the spec marks as its own (92_eei_decisions.md) or on a choice of the model, its docstring names the
decision and the log entry. -/

open Sys2Proof Sys2Proof.Machine

/-! ## Encoding and decoding -/

/-- No bit of an encoding is dropped: what the decoder reads from the words of a well-formed
instruction, whatever follows them, is that instruction and the words that follow
(30_encoding.md R80, R81, R83, R86). -/
def Obligations.DecodeOfEncode : Prop :=
  ∀ (i : Instr) (rest : List Word), i.wf = true → decode (encode i ++ rest) = .ok (i, rest)

/-- Each sequence of words has one meaning: an instruction the decoder reads is well formed, and its
encoding is exactly the words it was read from (30_encoding.md R82, R86, R90). -/
def Obligations.EncodeOfDecode : Prop :=
  ∀ (ws rest : List Word) (i : Instr),
    decode ws = .ok (i, rest) → i.wf = true ∧ encode i ++ rest = ws

/-- 30_encoding.md R83: the three classes of operand words, their ranges and their bit patterns. -/
def Obligations.OperandWordClasses : Prop :=
  ∀ w : Word,
    (w.toNat ≤ 32767 → classify w = .lit w) ∧
    (∀ i : Fin 8, w.toNat = 32768 + i.val → classify w = .reg i) ∧
    (32776 ≤ w.toNat → classify w = .invalid w) ∧
    (w.toNat ≤ 32767 ↔ w.getLsbD 15 = false) ∧
    (32768 ≤ w.toNat ∧ w.toNat ≤ 32775 ↔ w.extractLsb' 3 13 = 0b1000000000000) ∧
    (32768 ≤ w.toNat ∧ w.toNat ≤ 32775 → (w.extractLsb' 0 3).toNat = w.toNat - 32768) ∧
    (32776 ≤ w.toNat ↔ w.getLsbD 15 = true ∧ w.extractLsb' 3 12 ≠ 0)

/-- Opcode words (30_encoding.md, section 1): the opcode is the whole of word 0. The values 0 to 21 select the rows of the
opcode map, no two of them the same instruction, and every other value selects none and ends the run
in a decode fault, whatever the registers hold. The record is the spec's decision D20 (log 17). -/
def Obligations.OpcodeIsTheWholeWord : Prop :=
  (∀ op : Word, op.toNat ≤ 21 → ∃ sh, lookupOpcode op = some sh) ∧
  (∀ (op op' : Word) (sh sh' : Shape) (raw raw' : Nat → Word), lookupOpcode op = some sh →
    lookupOpcode op' = some sh' → sh.build raw = sh'.build raw' → op = op') ∧
  (∀ op : Word, 22 ≤ op.toNat → lookupOpcode op = none) ∧
  ∀ s : State, s.halted = false → s.pc.toNat ≤ 32767 → 22 ≤ (s.mem.read s.pc.toNat).toNat →
    ∃ t r, step s = .next t ∧ t.halted = true ∧ t.fault = some r ∧ r.cause = .decodeFault

/-- Words written out from 30_encoding.md R86 and the examples of files 41 to 46 decode to the
instructions they stand for. -/
def Obligations.SampleWordsDecode : Prop :=
  decode [1, 32768, 5] = .ok (.set (.reg 0) (.lit 5), []) ∧
  decode [4, 32768, 32769, 65] = .ok (.eq (.reg 0) (.reg 1) (.lit 65), []) ∧
  decode [7, 32768, 6] = .ok (.jt (.reg 0) (.lit 6), []) ∧
  decode [9, 32768, 32769, 4, 19] = .ok (.add (.reg 0) (.reg 1) (.lit 4), [19]) ∧
  decode [16, 100, 32775] = .ok (.wmem (.lit 100) (.reg 7), []) ∧
  decode [20, 32776] = .ok (.inp (.invalid 32776), [])

/-! ## The step -/

/-- A step runs the decoded instruction (40_dispatch_and_operands.md R126): when the words at the pc,
all inside memory, decode to an instruction, the step of a running machine is that instruction's
`exec`. Nothing is added around it: the meaning itself moves the pc. -/
def Obligations.StepRunsDecodedInstruction : Prop :=
  ∀ (s : State) (i : Instr) (n : Nat), s.halted = false → s.pc.toNat + n ≤ 32768 →
    decode ((List.range n).map fun k => s.mem.read (s.pc.toNat + k)) = .ok (i, []) →
    step s = exec i s

/-- A state with `halted` = true has no step (40_dispatch_and_operands.md R110): the model answers
`Fault.halted`, its own name for "no step" (log 3). -/
def Obligations.HaltedMachineHasNoStep : Prop :=
  ∀ s : State, s.halted = true → step s = .fault .halted

/-- The halt guard (40_dispatch_and_operands.md, section 1): a pc above 32767 sets `halted` and
nothing else. That the guard is a step which sets the flag is the spec's decision D5 (log 14). -/
def Obligations.HaltGuardStops : Prop :=
  ∀ s : State, s.halted = false → 32767 < s.pc.toNat → step s = .next { s with halted := true }

/-- The decode fault (60_exceptions.md, sections 2 and 3): an opcode word above 21 sets the fault
record and `halted` and nothing else, whatever words follow it. That the pc stays is the spec's
decision D4 (log 12), the shape of the record D20 (log 17). -/
def Obligations.DecodeFaultTaken : Prop :=
  ∀ s : State, s.halted = false → s.pc.toNat ≤ 32767 → 21 < (s.mem.read s.pc.toNat).toNat →
    step s = .next { s with halted := true,
                            fault := some ⟨.decodeFault, s.pc, s.mem.read s.pc.toNat⟩ }

/-- An operand word above address 32767 (40_dispatch_and_operands.md, section 1): the fault
OperandFetchOutOfRange, before any operand is resolved. The fault itself is the spec's decision D6
(log 15), the unchanged pc D4 (log 12). -/
def Obligations.OperandBeyondMemoryFaults : Prop :=
  ∀ (s : State) (sh : Shape), s.halted = false → s.pc.toNat ≤ 32767 →
    lookupOpcode (s.mem.read s.pc.toNat) = some sh → 32767 < s.pc.toNat + sh.arity →
    step s = .next { s with halted := true,
                            fault := some ⟨.operandFetchOutOfRange, s.pc, s.mem.read s.pc.toNat⟩ }

/-- The outcomes of a step (40_dispatch_and_operands.md, section 4): from a running machine without a
fault record there is a next state, running or halted without a record or halted with one, or there is
none yet because an `in` with a register destination finds no input word; and nothing is ever refused.
`Fault.inputWait` is the model's name for "no next state yet" (log 4). -/
def Obligations.StepOutcomes : Prop :=
  (∀ (s : State) (r : Refusal), step s ≠ .refused r) ∧
  ∀ s : State, s.halted = false → s.fault = none →
    (∃ t, step s = .next t ∧ (t.halted = false → t.fault = none)) ∨
    (step s = .fault .inputWait ∧ s.pc.toNat < 32767 ∧ s.mem.read s.pc.toNat = 20 ∧
      s.input = [] ∧ ∃ d : Fin 8, (s.mem.read (s.pc.toNat + 1)).toNat = 32768 + d.val)

/-- The end of a run (70_reset_and_hazards.md, section 3; 10_state.md, section 6): a step sets `halted`
in exactly three ways, the halt guard, the word 0 of `halt`, and a fatal fault, and each leaves
everything else as it was but for the pc after `halt`. The pc after `halt` is the spec's decision D3
(log 11), after a fault D4 (log 12), the guard's flag D5 (log 14). -/
def Obligations.ThreeWaysToEndARun : Prop :=
  ∀ s t : State, step s = .next t → t.halted = true →
    (32767 < s.pc.toNat ∧ t = { s with halted := true }) ∨
    (s.pc.toNat ≤ 32767 ∧ s.mem.read s.pc.toNat = 0 ∧
      t = { s with halted := true, pc := s.pc + 1 }) ∨
    (s.pc.toNat ≤ 32767 ∧ s.mem.read s.pc.toNat ≠ 0 ∧ ∃ c,
      t = { s with halted := true, fault := some ⟨c, s.pc, s.mem.read s.pc.toNat⟩ })

/-! ## Operand resolution -/

/-- 40_dispatch_and_operands.md R118: `Val` of a raw operand word, read from the register file as it
is before the instruction has any effect. -/
def Obligations.ValueResolution : Prop :=
  ∀ (s : State) (w : Word),
    (w.toNat ≤ 32767 → val s (classify w) = some w) ∧
    (∀ i : Fin 8, w.toNat = 32768 + i.val → val s (classify w) = some s.reg[i]) ∧
    (32776 ≤ w.toNat → val s (classify w) = none)

/-- 40_dispatch_and_operands.md R119: `Dst` of a raw operand word. It takes no state: it reads no
register. -/
def Obligations.DestinationResolution : Prop :=
  ∀ w : Word,
    (w.toNat ≤ 32767 → dst (classify w) = none) ∧
    (∀ i : Fin 8, w.toNat = 32768 + i.val → dst (classify w) = some i) ∧
    (32776 ≤ w.toNat → dst (classify w) = none)

/-- The soft skip (40_dispatch_and_operands.md, section 3), for every instruction: if some operand
cannot be resolved in its role, the pc moves past the instruction's full width and nothing else
happens: no fault, no stack, no input, no output. That it comes before every fault of the instruction
is the spec's decision D9, that it touches neither stack nor streams D10 (log 13). -/
def Obligations.SoftSkipHasNoEffect : Prop :=
  ∀ (i : Instr) (s : State),
    (∃ a, (Role.value, a) ∈ i.operands ∧ val s a = none) ∨
      (∃ a, (Role.dest, a) ∈ i.operands ∧ dst a = none) →
    exec i s = .next { s with pc := s.pc + BitVec.ofNat 16 (1 + i.operands.length) }

/-! ## set, push, pop -/

/-- `set` (41_move_and_stack.md, section of `set`). That the value is copied unreduced is the spec's
decision D2 (log 16). -/
def Obligations.SetCopiesValue : Prop :=
  ∀ (a b : Operand) (s : State), encode (.set a b) = [1, a.word, b.word] ∧
    (∀ d x, dst a = some d → val s b = some x → exec (.set a b) s =
      .next { s with reg := s.reg.set d.val x d.isLt, pc := s.pc + 3 }) ∧
    (dst a = none ∨ val s b = none → exec (.set a b) s = .next { s with pc := s.pc + 3 })

/-- `push` (41_move_and_stack.md, section of `push`): onto a stack with room it completes; a stack
that already holds STACK_CAP words gives StackOverflow, which is fatal and changes nothing else by the
spec's decisions D11 and D4 (log 5, 12). -/
def Obligations.PushAppendsValue : Prop :=
  ∀ (a : Operand) (s : State), encode (.push a) = [2, a.word] ∧
    (∀ x, val s a = some x →
      ((∀ n, s.stackCap = some n → s.stack.length < n) → exec (.push a) s =
        .next { s with stack := s.stack ++ [x], pc := s.pc + 2 }) ∧
      (∀ n, s.stackCap = some n → n ≤ s.stack.length → exec (.push a) s =
        .next { s with halted := true, fault := some ⟨.stackOverflow, s.pc, 2⟩ })) ∧
    (val s a = none → exec (.push a) s = .next { s with pc := s.pc + 2 })

/-- `pop` (41_move_and_stack.md, section of `pop`): with a word on the stack it completes; on an empty
stack it takes StackEmpty and changes nothing else; an unresolvable destination skips it first. The
unchanged pc is the spec's decision D4 (log 12), the order D9 (log 13). -/
def Obligations.PopTakesTheTop : Prop :=
  ∀ (a : Operand) (s : State), encode (.pop a) = [3, a.word] ∧
    (∀ d, dst a = some d →
      (∀ rest v, s.stack = rest ++ [v] → exec (.pop a) s =
        .next { s with reg := s.reg.set d.val v d.isLt, stack := rest, pc := s.pc + 2 }) ∧
      (s.stack = [] → exec (.pop a) s =
        .next { s with halted := true, fault := some ⟨.stackEmpty, s.pc, 3⟩ })) ∧
    (dst a = none → exec (.pop a) s = .next { s with pc := s.pc + 2 })

/-! ## eq, gt -/

/-- 42_compare.md R150: whole words are compared, unreduced. -/
def Obligations.EqWritesOneOrZero : Prop :=
  ∀ (a b c : Operand) (s : State), encode (.eq a b c) = [4, a.word, b.word, c.word] ∧
    (∀ d x y, dst a = some d → val s b = some x → val s c = some y → exec (.eq a b c) s =
      .next { s with reg := s.reg.set d.val (if x = y then 1 else 0) d.isLt, pc := s.pc + 4 }) ∧
    (dst a = none ∨ val s b = none ∨ val s c = none →
      exec (.eq a b c) s = .next { s with pc := s.pc + 4 })

/-- 42_compare.md R151: unsigned, b on the left. -/
def Obligations.GtWritesOneOrZero : Prop :=
  ∀ (a b c : Operand) (s : State), encode (.gt a b c) = [5, a.word, b.word, c.word] ∧
    (∀ d x y, dst a = some d → val s b = some x → val s c = some y → exec (.gt a b c) s =
      .next { s with reg := s.reg.set d.val (if x.toNat > y.toNat then 1 else 0) d.isLt,
                     pc := s.pc + 4 }) ∧
    (dst a = none ∨ val s b = none ∨ val s c = none →
      exec (.gt a b c) s = .next { s with pc := s.pc + 4 })

/-! ## halt, jmp, jt, jf, call, ret, noop -/

/-- `halt` (43_control_flow.md, section of `halt`): it always completes, `halted` is set, no fault is
recorded, and the pc moves past the word by the spec's decision D3 (log 11). -/
def Obligations.HaltStopsTheMachine : Prop :=
  encode .halt = [0] ∧
  ∀ s : State, exec .halt s = .next { s with halted := true, pc := s.pc + 1 } ∧
    ∀ t, exec .halt s = .next t → step t = .fault .halted

/-- `jmp` (43_control_flow.md, section of `jmp`): the target goes to the pc as it is, and above 32767
the next step of a running machine is the halt guard. That targets are not reduced is the spec's
decision D21, the guard's flag D5 (log 14). -/
def Obligations.JmpLoadsTarget : Prop :=
  ∀ (a : Operand) (s : State), encode (.jmp a) = [6, a.word] ∧
    (∀ x, val s a = some x → exec (.jmp a) s = .next { s with pc := x } ∧
      (s.halted = false → 32767 < x.toNat →
        step { s with pc := x } = .next { s with pc := x, halted := true })) ∧
    (val s a = none → exec (.jmp a) s = .next { s with pc := s.pc + 2 })

/-- `jt` (43_control_flow.md, section of `jt`): both operands are resolved before the test. That the
target goes to the pc as it is, also above 32767, is the spec's decision D21 (log 14). -/
def Obligations.JtJumpsIfNonZero : Prop :=
  ∀ (a b : Operand) (s : State), encode (.jt a b) = [7, a.word, b.word] ∧
    (∀ x y, val s a = some x → val s b = some y →
      exec (.jt a b) s = .next { s with pc := if x ≠ 0 then y else s.pc + 3 }) ∧
    (val s a = none ∨ val s b = none → exec (.jt a b) s = .next { s with pc := s.pc + 3 })

/-- `jf` (43_control_flow.md, section of `jf`). That the target goes to the pc as it is, also above
32767, is the spec's decision D21 (log 14). -/
def Obligations.JfJumpsIfZero : Prop :=
  ∀ (a b : Operand) (s : State), encode (.jf a b) = [8, a.word, b.word] ∧
    (∀ x y, val s a = some x → val s b = some y →
      exec (.jf a b) s = .next { s with pc := if x = 0 then y else s.pc + 3 }) ∧
    (val s a = none ∨ val s b = none → exec (.jf a b) s = .next { s with pc := s.pc + 3 })

/-- `call` (43_control_flow.md, section of `call`): with room on the stack it pushes pc + 2 and jumps;
on a full stack it takes StackOverflow (the spec's decisions D11, D4; log 5, 12); an unresolvable
target pushes nothing (D10; log 13); the target goes to the pc as it is (D21; log 14). -/
def Obligations.CallPushesReturnAddress : Prop :=
  ∀ (a : Operand) (s : State), encode (.call a) = [17, a.word] ∧
    (∀ x, val s a = some x →
      ((∀ n, s.stackCap = some n → s.stack.length < n) → exec (.call a) s =
        .next { s with stack := s.stack ++ [s.pc + 2], pc := x }) ∧
      (∀ n, s.stackCap = some n → n ≤ s.stack.length → exec (.call a) s =
        .next { s with halted := true, fault := some ⟨.stackOverflow, s.pc, 17⟩ })) ∧
    (val s a = none → exec (.call a) s = .next { s with pc := s.pc + 2 })

/-- `ret` (43_control_flow.md, section of `ret`): the top of the stack goes to the pc as it is (the
spec's decision D21, log 14); on an empty stack it takes StackEmpty and leaves the pc (D4, log 12). -/
def Obligations.RetPopsThePc : Prop :=
  encode .ret = [18] ∧
  ∀ s : State,
    (∀ rest v, s.stack = rest ++ [v] → exec .ret s = .next { s with stack := rest, pc := v }) ∧
    (s.stack = [] → exec .ret s =
      .next { s with halted := true, fault := some ⟨.stackEmpty, s.pc, 18⟩ })

/-- `noop` (43_control_flow.md, section of `noop`) moves the pc and nothing else, its word 21 is what
every cell holds after reset, and a `noop` at 32767 leads to the halt guard, a step that sets the flag
by the spec's decision D5 (log 14). -/
def Obligations.NoopOnlyAdvances : Prop :=
  encode .noop = [21] ∧ (∀ a : Nat, State.reset.mem.read a = 21) ∧
  ∀ s : State, exec .noop s = .next { s with pc := s.pc + 1 } ∧
    (s.halted = false → s.pc = 32767 → ∀ t, exec .noop s = .next t →
      t.pc = 32768 ∧ step t = .next { t with halted := true })

/-! ## add, mult, mod, and, or, not -/

/-- 44_alu.md R181. -/
def Obligations.AddModulo32768 : Prop :=
  ∀ (a b c : Operand) (s : State), encode (.add a b c) = [9, a.word, b.word, c.word] ∧
    (∀ d x y, dst a = some d → val s b = some x → val s c = some y → exec (.add a b c) s =
      .next { s with reg := s.reg.set d.val (BitVec.ofNat 16 ((x.toNat + y.toNat) % 32768)) d.isLt,
                     pc := s.pc + 4 }) ∧
    (dst a = none ∨ val s b = none ∨ val s c = none →
      exec (.add a b c) s = .next { s with pc := s.pc + 4 })

/-- 44_alu.md R182. -/
def Obligations.MultModulo32768 : Prop :=
  ∀ (a b c : Operand) (s : State), encode (.mult a b c) = [10, a.word, b.word, c.word] ∧
    (∀ d x y, dst a = some d → val s b = some x → val s c = some y → exec (.mult a b c) s =
      .next { s with reg := s.reg.set d.val (BitVec.ofNat 16 ((x.toNat * y.toNat) % 32768)) d.isLt,
                     pc := s.pc + 4 }) ∧
    (dst a = none ∨ val s b = none ∨ val s c = none →
      exec (.mult a b c) s = .next { s with pc := s.pc + 4 })

/-- `mod` (44_alu.md, section of `mod`): with a non-zero divisor it completes with the unreduced
remainder; the divisor 0 takes DivideByZero. That the fault is fatal is the spec's decision D8
(log 15), the unchanged pc D4 (log 12), the skip first D9 (log 13). -/
def Obligations.ModLeavesRemainder : Prop :=
  ∀ (a b c : Operand) (s : State), encode (.mod a b c) = [11, a.word, b.word, c.word] ∧
    (∀ d x y, dst a = some d → val s b = some x → val s c = some y →
      (y ≠ 0 → exec (.mod a b c) s =
        .next { s with reg := s.reg.set d.val (BitVec.ofNat 16 (x.toNat % y.toNat)) d.isLt,
                       pc := s.pc + 4 }) ∧
      (y = 0 → exec (.mod a b c) s =
        .next { s with halted := true, fault := some ⟨.divideByZero, s.pc, 11⟩ })) ∧
    (dst a = none ∨ val s b = none ∨ val s c = none →
      exec (.mod a b c) s = .next { s with pc := s.pc + 4 })

/-- 44_alu.md R184. -/
def Obligations.AndModulo32768 : Prop :=
  ∀ (a b c : Operand) (s : State), encode (.and a b c) = [12, a.word, b.word, c.word] ∧
    (∀ d x y, dst a = some d → val s b = some x → val s c = some y → exec (.and a b c) s =
      .next { s with reg := s.reg.set d.val (x &&& y &&& 0x7FFF) d.isLt, pc := s.pc + 4 }) ∧
    (dst a = none ∨ val s b = none ∨ val s c = none →
      exec (.and a b c) s = .next { s with pc := s.pc + 4 })

/-- 44_alu.md R185. -/
def Obligations.OrModulo32768 : Prop :=
  ∀ (a b c : Operand) (s : State), encode (.or a b c) = [13, a.word, b.word, c.word] ∧
    (∀ d x y, dst a = some d → val s b = some x → val s c = some y → exec (.or a b c) s =
      .next { s with reg := s.reg.set d.val ((x ||| y) &&& 0x7FFF) d.isLt, pc := s.pc + 4 }) ∧
    (dst a = none ∨ val s b = none ∨ val s c = none →
      exec (.or a b c) s = .next { s with pc := s.pc + 4 })

/-- 44_alu.md R186: the complement on 16 bits, 15 bits kept; twice, it gives b mod 32768. -/
def Obligations.NotComplements15Bits : Prop :=
  ∀ (a b : Operand) (s : State), encode (.not a b) = [14, a.word, b.word] ∧
    (∀ d x, dst a = some d → val s b = some x → exec (.not a b) s =
      .next { s with reg := s.reg.set d.val (BitVec.ofNat 16 ((65535 - x.toNat) % 32768)) d.isLt,
                     pc := s.pc + 3 } ∧
      ∀ t u, exec (.not a b) s = .next t → exec (.not a a) t = .next u →
        u.reg[d].toNat = x.toNat % 32768) ∧
    (dst a = none ∨ val s b = none → exec (.not a b) s = .next { s with pc := s.pc + 3 })

/-- 44_alu.md, section 1 (R180): whatever the operands, `add`, `mult`, `and`, `or` and `not` leave a
value of at most 32767 in the destination register. -/
def Obligations.ReducedResultsFit15Bits : Prop :=
  ∀ (a b c : Operand) (s t : State) (d : Fin 8) (x y : Word),
    dst a = some d → val s b = some x → val s c = some y →
    (exec (.add a b c) s = .next t ∨ exec (.mult a b c) s = .next t ∨ exec (.and a b c) s = .next t ∨
      exec (.or a b c) s = .next t ∨ exec (.not a b) s = .next t) →
    t.reg[d].toNat ≤ 32767

/-- 44_alu.md R187 at the widths a hardware would choose: the 16-bit adder and the 16-bit multiplier,
with bit 15 cleared afterwards, leave the same register as the exact sum and product. -/
def Obligations.NarrowAccumulatorsSuffice : Prop :=
  ∀ (a b c : Operand) (s : State) (d : Fin 8) (x y : Word),
    dst a = some d → val s b = some x → val s c = some y →
    (∃ t, exec (.add a b c) s = .next t ∧ t.reg[d] = (x + y) &&& 0x7FFF) ∧
    (∃ t, exec (.mult a b c) s = .next t ∧ t.reg[d] = (x * y) &&& 0x7FFF)

/-! ## rmem, wmem -/

/-- `rmem` (45_memory_access.md, section of `rmem`): the raw cell goes to the register; an address
above 32767 takes AddressOutOfRange. The fault is the spec's decision D7 (log 15), the unchanged pc D4
(log 12), the skip first D9 (log 13). -/
def Obligations.RmemLoadsTheCell : Prop :=
  ∀ (a b : Operand) (s : State), encode (.rmem a b) = [15, a.word, b.word] ∧
    (∀ d x, dst a = some d → val s b = some x →
      (x.toNat ≤ 32767 → exec (.rmem a b) s =
        .next { s with reg := s.reg.set d.val (s.mem.read x.toNat) d.isLt, pc := s.pc + 3 }) ∧
      (32767 < x.toNat → exec (.rmem a b) s =
        .next { s with halted := true, fault := some ⟨.addressOutOfRange, s.pc, 15⟩ })) ∧
    (dst a = none ∨ val s b = none → exec (.rmem a b) s = .next { s with pc := s.pc + 3 })

/-- `wmem` (45_memory_access.md, section of `wmem`): the cell at the address holds the value, every
other cell and everything else but the pc is unchanged; an address above 32767 takes
AddressOutOfRange. Memory is in canonical form (`StepKeepsProper` keeps it). The fault is the spec's
decision D7 (log 15), the unchanged pc D4 (log 12), the skip first D9 (log 13). -/
def Obligations.WmemStoresTheWord : Prop :=
  ∀ (a b : Operand) (s : State), encode (.wmem a b) = [16, a.word, b.word] ∧
    (∀ x y, val s a = some x → val s b = some y →
      (x.toNat ≤ 32767 → s.mem.wf → ∃ m, exec (.wmem a b) s =
          .next { s with mem := m, pc := s.pc + 3 } ∧
        m.read x.toNat = y ∧ ∀ adr, adr ≠ x.toNat → m.read adr = s.mem.read adr) ∧
      (32767 < x.toNat → exec (.wmem a b) s =
        .next { s with halted := true, fault := some ⟨.addressOutOfRange, s.pc, 16⟩ })) ∧
    (val s a = none ∨ val s b = none → exec (.wmem a b) s = .next { s with pc := s.pc + 3 })

/-- A store is seen by the very next fetch (20_memory.md R62): when the word stored lands where the
next instruction is fetched, the next step runs that word: an illegal one faults, 0 halts, 21 goes on.
The pc of the halted machine and of the faulted one are the spec's decisions D3 and D4 (log 11, 12). -/
def Obligations.NextFetchSeesTheStore : Prop :=
  ∀ (a b : Operand) (s t : State) (x y : Word), s.halted = false → s.mem.wf →
    val s a = some x → val s b = some y → x.toNat ≤ 32767 → x = s.pc + 3 →
    exec (.wmem a b) s = .next t →
    (21 < y.toNat → step t =
      .next { t with halted := true, fault := some ⟨.decodeFault, x, y⟩ }) ∧
    (y = 0 → step t = .next { t with halted := true, pc := x + 1 }) ∧
    (y = 21 → step t = .next { t with pc := x + 1 })

/-- Equal memories are equal data: two memories in canonical form that read alike at every address
are the same list (the form of log 1). -/
def Obligations.CanonicalMemoriesAgree : Prop :=
  ∀ m m' : Memory, m.wf → m'.wf → (∀ a, m.read a = m'.read a) → m = m'

/-! ## out, in -/

/-- `out` (46_io.md, section of `out`): one word per `out`. That it is emitted unreduced is the spec's
decision D12 (log 16), that a skipped `out` emits nothing D10 (log 13). -/
def Obligations.OutEmitsOneWord : Prop :=
  ∀ (a : Operand) (s : State), encode (.outp a) = [19, a.word] ∧
    (∀ x, val s a = some x → exec (.outp a) s =
      .next { s with output := s.output ++ [x], pc := s.pc + 2 }) ∧
    (val s a = none → exec (.outp a) s = .next { s with pc := s.pc + 2 })

/-- `in` (46_io.md, sections of `in` and of blocking): with a word at hand it completes and takes
exactly that word; without one there is no next state, which the model names `Fault.inputWait`
(log 4); the soft skip takes no input (the spec's decision D10, log 13); the word is written unreduced
(D12, log 16). -/
def Obligations.InTakesOneWord : Prop :=
  ∀ (a : Operand) (s : State), encode (.inp a) = [20, a.word] ∧
    (∀ d, dst a = some d →
      (∀ w ws, s.input = w :: ws → exec (.inp a) s =
        .next { s with reg := s.reg.set d.val w d.isLt, input := ws, consumed := s.consumed + 1,
                       pc := s.pc + 2 }) ∧
      (s.input = [] → exec (.inp a) s = .fault .inputWait)) ∧
    (dst a = none → exec (.inp a) s = .next { s with pc := s.pc + 2 })

/-- A waiting `in` resumes when the word arrives (46_io.md, section of blocking): whatever word the
host supplies to a machine whose step found no input, the same step then completes, all at once.
`Fault.inputWait` is the model's name for the wait (log 4), `State.supply` its arrival (log 7). That
the word is written unreduced is the spec's decision D12 (log 16). -/
def Obligations.WaitingInResumes : Prop :=
  ∀ s : State, step s = .fault .inputWait → ∀ w : Word, ∃ d : Fin 8,
    (s.mem.read (s.pc.toNat + 1)).toNat = 32768 + d.val ∧
    step (s.supply w) =
      .next { s with reg := s.reg.set d.val w d.isLt, consumed := s.consumed + 1, pc := s.pc + 2 }

/-! ## Frames over all instructions -/

/-- Registers: an instruction changes no register but the one its destination operand names
(10_state.md R24). -/
def Obligations.RegisterFrame : Prop :=
  ∀ (i : Instr) (s t : State) (r : Fin 8), exec i s = .next t →
    (∀ a, (Role.dest, a) ∈ i.operands → dst a ≠ some r) → t.reg[r] = s.reg[r]

/-- Memory: every cell is unchanged but the one whose address is the resolved operand a of a `wmem`
(20_memory.md R53, R54). Memory is in canonical form (`StepKeepsProper` keeps it). -/
def Obligations.MemoryFrame : Prop :=
  ∀ (i : Instr) (s t : State) (adr : Nat), s.mem.wf → exec i s = .next t →
    (∀ a b x, i = .wmem a b → val s a = some x → x.toNat ≠ adr) →
    t.mem.read adr = s.mem.read adr

/-- Stack, streams, the capacity and the record of the load: `push` and `call` append at most one word, `pop` and `ret` remove
at most the top, no other instruction changes the stack (10_state.md R33); only `out` adds to the
output, at its end; only `in` takes input, the next word; nothing changes STACK_CAP or the record of the load (log 5, 10). -/
def Obligations.StackAndStreamFrame : Prop :=
  ∀ (i : Instr) (s t : State), exec i s = .next t →
    t.stackCap = s.stackCap ∧ t.loaded = s.loaded ∧
    (t.stack = s.stack ∨
      (∃ a w, (i = .push a ∧ val s a = some w ∨ i = .call a ∧ w = s.pc + 2) ∧
        t.stack = s.stack ++ [w]) ∨
      (((∃ a, i = .pop a) ∨ i = .ret) ∧ ∃ v, s.stack = t.stack ++ [v])) ∧
    (t.output = s.output ∨ ∃ a w, i = .outp a ∧ val s a = some w ∧ t.output = s.output ++ [w]) ∧
    ((t.input = s.input ∧ t.consumed = s.consumed) ∨
      ∃ a w, i = .inp a ∧ s.input = w :: t.input ∧ t.consumed = s.consumed + 1)

/-- Status: an instruction that completes leaves `fault` alone, and `halted` too unless it is `halt`;
otherwise it took a fatal fault, and then nothing else changed, and it is one of the six instructions
that can. The unchanged pc is the spec's decision D4 (log 12). -/
def Obligations.StatusFrame : Prop :=
  ∀ (i : Instr) (s t : State), exec i s = .next t →
    (t.fault = s.fault ∧ (t.halted = s.halted ∨ i = .halt)) ∨
    ∃ c op, t = { s with halted := true, fault := some ⟨c, s.pc, op⟩ } ∧
      encode i = op :: (encode i).tail ∧
      (c = .stackEmpty ∧ ((∃ a, i = .pop a) ∨ i = .ret) ∨
        c = .divideByZero ∧ (∃ a b d, i = .mod a b d) ∨
        c = .addressOutOfRange ∧ ((∃ a b, i = .rmem a b) ∨ ∃ a b, i = .wmem a b) ∨
        c = .stackOverflow ∧ ((∃ a, i = .push a) ∨ ∃ a, i = .call a))

/-- The pc (10_state.md, section 3; 40_dispatch_and_operands.md R125): after an instruction it is past
the instruction's width, or the resolved target of a `jmp`, `jt`, `jf` or `call`, or the word `ret`
took from the stack, or it stands where it was because a fatal fault was taken (the spec's decision D4,
log 12). That `halt` moves the pc past its width is the spec's decision D3 (log 11), that targets are
not reduced D21 (log 14). -/
def Obligations.PcAfterAnInstruction : Prop :=
  ∀ (i : Instr) (s t : State), exec i s = .next t →
    t.pc = s.pc + BitVec.ofNat 16 (1 + i.operands.length) ∨
    (∃ a, (i = .jmp a ∨ i = .call a) ∧ val s a = some t.pc) ∨
    (∃ a b x, (i = .jt a b ∧ x ≠ 0 ∨ i = .jf a b ∧ x = 0) ∧
      val s a = some x ∧ val s b = some t.pc) ∨
    (i = .ret ∧ ∃ rest, s.stack = rest ++ [t.pc]) ∨
    (t.pc = s.pc ∧ t.halted = true ∧ ∃ c op, t.fault = some ⟨c, s.pc, op⟩)

/-! ## What instructions cannot see -/

/-- Nothing reads the output trace (46_io.md, section of the OUT interface): two machines that differ
in it alone take the same steps and emit the same words. -/
def Obligations.OutputTraceIsNeverRead : Prop :=
  ∀ (s : State) (o : List Word),
    (∀ t, step s = .next t → ∃ ws, t.output = s.output ++ ws ∧
      step { s with output := o } = .next { t with output := o ++ ws }) ∧
    (∀ f, step s = .fault f → step { s with output := o } = .fault f)

/-- No instruction but `push`, `pop`, `call` and `ret` reads or writes the stack (10_state.md R33). -/
def Obligations.StackIsSeenByFourInstructions : Prop :=
  ∀ (i : Instr) (s : State) (st : List Word),
    (∀ a, i ≠ .push a ∧ i ≠ .pop a ∧ i ≠ .call a) → i ≠ .ret →
    (∀ t, exec i s = .next t → t.stack = s.stack ∧
      exec i { s with stack := st } = .next { t with stack := st }) ∧
    (∀ f, exec i s = .fault f → exec i { s with stack := st } = .fault f)

/-! ## Sequences of two instructions -/

/-- "`push` followed immediately by `pop` with no intervening stack operation yields the original
pushed value" (41_move_and_stack.md R142): and the stack is what it was. -/
def Obligations.PopReturnsWhatPushStored : Prop :=
  ∀ (a b : Operand) (d : Fin 8) (s : State) (x : Word), val s a = some x → dst b = some d →
    (∀ n, s.stackCap = some n → s.stack.length < n) →
    ∃ t, exec (.push a) s = .next t ∧
      exec (.pop b) t = .next { s with reg := s.reg.set d.val x d.isLt, pc := s.pc + 4 }

/-- A `ret` on the stack a `call` left goes to the word after the `call`, with the caller's stack, and
whatever the subroutine did to the rest of the state (43_control_flow.md R168, R170, R177). That the
target goes to the pc as it is, is the spec's decision D21 (log 14). -/
def Obligations.RetReturnsBehindTheCall : Prop :=
  ∀ (a : Operand) (s u : State) (x : Word), val s a = some x →
    (∀ n, s.stackCap = some n → s.stack.length < n) →
    ∃ t, exec (.call a) s = .next t ∧ t.pc = x ∧
      (u.stack = t.stack → exec .ret u = .next { u with stack := s.stack, pc := s.pc + 2 })

/-! ## Reset, load, invariants -/

/-- 10_state.md R43: the machine after reset, before the program image is loaded. -/
def Obligations.ResetState : Prop :=
  (∀ a : Nat, a ≤ 32767 → State.reset.mem.read a = 21) ∧
  (∀ i : Fin 8, State.reset.reg[i] = 0) ∧ State.reset.stack = [] ∧ State.reset.pc = 0 ∧
  State.reset.halted = false ∧ State.reset.fault = none ∧ State.reset.dispatcher = .running

/-- 70_reset_and_hazards.md R275 and R278: the load of an image that fits into a fresh machine puts
each pair of bytes, low byte first, into its cell, leaves every cell beyond at 21, discards an unpaired
last byte, and touches nothing but memory and the model's record that the one load has happened. That
only a fresh machine is loaded is the spec's decision D15, that the image must fit D14 (log 10). -/
def Obligations.LoadPlacesTheImage : Prop :=
  ∀ (image : List Byte) (s : State), s.fresh = true → image.length / 2 ≤ 32768 →
    ∃ m, loadImage image s = .next { s with mem := m, loaded := true } ∧ m.wf ∧
      (∀ k, k < image.length / 2 → (m.read k).toNat =
        (image.getD (2 * k) 0).toNat + 256 * (image.getD (2 * k + 1) 0).toNat) ∧
      (∀ k, image.length / 2 ≤ k → m.read k = 21)

/-- 70_reset_and_hazards.md, section 2: an image of more than 32768 words is refused (the spec's
decision D14), and so is a load into a machine that was loaded before or is not as reset left it (D15); log 10. -/
def Obligations.LoadRefusals : Prop :=
  ∀ (image : List Byte) (s : State),
    (s.fresh = true → 32768 < image.length / 2 → loadImage image s = .refused .imageTooLong) ∧
    (s.loaded = true ∨ s.pc ≠ 0 ∨ s.halted = true ∨ s.stack ≠ [] ∨ s.mem ≠ [] →
      loadImage image s = .refused .loadNotFresh)

/-- One load, before the first step (70_reset_and_hazards.md, section 2): after a load, of whatever
image (an empty one and one of `noop` words too), and after any number of steps from there, every
further load is refused; and so is every load into a fresh machine that has made a step without one.
The refusals are the spec's decision D15 (log 10). -/
def Obligations.OneLoadBeforeTheFirstStep : Prop :=
  (∀ (image : List Byte) (s t : State), loadImage image s = .next t →
    ∀ (k : Nat) (u : State), core.run k t = .next u →
      ∀ image' : List Byte, loadImage image' u = .refused .loadNotFresh) ∧
  ∀ s : State, s.fresh = true → ∀ (k : Nat) (u : State), core.run (k + 1) s = .next u →
    ∀ image : List Byte, loadImage image u = .refused .loadNotFresh

/-- The reset state is proper. -/
def Obligations.ResetIsProper : Prop := Proper State.reset

/-- Every step keeps the proper states: memory stays canonical, the stack stays within STACK_CAP, and
a fault record appears only in a halted state whose pc, opcode word and condition it tells truly
(10_state.md R37, R44; 60_exceptions.md R231, R236). Part of it is the spec's decisions D4, D16 and
D20 (log 12, 17). -/
def Obligations.StepKeepsProper : Prop :=
  ∀ s t : State, Proper s → step s = .next t → Proper t

/-- The dispatcher's three states in terms of `halted` and `fault` (10_state.md, section 6), in every
proper state; a machine that waits for its input word is Running. The record is the spec's decision
D20 (log 17), `Fault.inputWait` the model's name for the wait (log 4). -/
def Obligations.DispatcherStates : Prop :=
  ∀ s : State, Proper s →
    (s.dispatcher = .running ↔ s.halted = false ∧ s.fault = none) ∧
    (s.dispatcher = .halted ↔ s.halted = true ∧ s.fault = none) ∧
    (s.dispatcher = .faulted ↔ s.halted = true ∧ s.fault ≠ none) ∧
    (step s = .fault .inputWait → s.dispatcher = .running)
end

