-- ==== Sys2Proof/Laws/Decode.lean ====
section
/-! SUPPORT. Operand words and their classes, and what the opcode map answers. -/

namespace Sys2Proof

/-- A well-formed operand is the class of its own word (30_encoding.md R83). -/
theorem classify_word {a : Operand} (h : a.wf = true) : classify a.word = a := by
  cases a with
  | lit v =>
    have h : v.toNat ≤ 32767 := by simpa [Operand.wf] using h
    simp [Operand.word, classify, Config.regBase, show v.toNat < 32768 by omega]
  | reg i => revert i; decide
  | invalid w =>
    have h : 32776 ≤ w.toNat := by simpa [Operand.wf] using h
    simp [Operand.word, classify, Config.regBase, Config.invalidBase,
      show ¬w.toNat < 32768 by omega, show ¬w.toNat < 32776 by omega]

/-- The class of any word is well formed. -/
theorem wf_classify (w : Word) : (classify w).wf = true := by
  unfold classify
  split
  · rename_i h
    simp only [Config.regBase] at h
    simp only [Operand.wf, decide_eq_true_eq]; omega
  · split
    · rfl
    · rename_i h
      simp only [Config.invalidBase] at h
      simp only [Operand.wf, decide_eq_true_eq]; omega

/-- No bit of an operand word is dropped by classification. -/
theorem word_classify (w : Word) : (classify w).word = w := by
  unfold classify
  split
  · rfl
  · split
    · rename_i h1 h2
      simp only [Config.regBase, Config.invalidBase] at h1 h2
      apply BitVec.eq_of_toNat_eq
      simp only [Operand.word, Config.regBase, Fin.ofNat, BitVec.toNat_ofNat]
      omega
    · rfl

/-- A row of the opcode map is found only for an opcode word of the map (30_encoding.md R82). -/
theorem lookupOpcode_mem {op : Word} {sh : Shape} (h : lookupOpcode op = some sh) :
    (op.toNat, sh) ∈ opcodeMap := by
  unfold lookupOpcode at h
  obtain ⟨row, hrow, rfl⟩ := Option.map_eq_some_iff.mp h
  have hp := List.find?_some hrow
  have hm := List.mem_of_find?_eq_some hrow
  have : row.1 = op.toNat := by simpa using hp
  rw [← this]; exact hm

/-- Every opcode of the map is one of 0..21 and stands in one row only. -/
theorem opcodeMap_opcodes : opcodeMap.map (·.1) = List.range 22 := by decide

end Sys2Proof
end

