-- ==== Sys2Proof/Laws/Memory.lean ====
section
/-! SUPPORT. Memory: a write keeps the canonical form, a read after a write, and consecutive cells. -/

namespace Sys2Proof.Machine

@[simp] theorem Memory.read_nil (a : Nat) : Memory.read [] a = Config.noopFill := rfl

theorem Memory.wf_nil : Memory.wf [] := ⟨List.Pairwise.nil, by simp⟩

theorem Memory.wf_tail {c : WordCell} {m : Memory} (h : Memory.wf (c :: m)) : Memory.wf m :=
  ⟨(List.pairwise_cons.mp h.1).2, fun d hd => h.2 d (List.mem_cons_of_mem _ hd)⟩

/-- An address below every listed one reads as the fill. -/
theorem Memory.read_of_lt_all {m : Memory} {a : Nat} (h : ∀ c ∈ m, a < c.1) :
    m.read a = Config.noopFill := by
  induction m with
  | nil => rfl
  | cons c m ih =>
    obtain ⟨b, w⟩ := c
    have hb : a < b := h (b, w) (by simp)
    have := ih fun d hd => h d (List.mem_cons_of_mem _ hd)
    simp [Memory.read, Nat.ne_of_lt hb, this]

/-- Every entry of a memory after a write is the written one or was there before. -/
theorem Memory.mem_write {m : Memory} {a : Nat} {v : Word} {c : WordCell}
    (h : c ∈ m.write a v) : (c = (a, v) ∧ v ≠ Config.noopFill) ∨ c ∈ m := by
  induction m with
  | nil =>
    by_cases hv : v = Config.noopFill <;> simp [Memory.write, hv] at h
    exact .inl ⟨h, hv⟩
  | cons d m ih =>
    obtain ⟨b, w⟩ := d
    unfold Memory.write at h
    split at h
    · split at h
      · exact .inr h
      · rcases List.mem_cons.mp h with rfl | h
        · exact .inl ⟨rfl, ‹_›⟩
        · exact .inr h
    · split at h
      · split at h
        · exact .inr (List.mem_cons_of_mem _ h)
        · rcases List.mem_cons.mp h with rfl | h
          · exact .inl ⟨rfl, ‹_›⟩
          · exact .inr (List.mem_cons_of_mem _ h)
      · rcases List.mem_cons.mp h with rfl | h
        · exact .inr (by simp)
        · exact (ih h).imp_right (List.mem_cons_of_mem _)

/-- A write to an existing cell keeps the canonical form. -/
theorem Memory.wf_write {m : Memory} {a : Nat} (v : Word) (h : m.wf) (ha : a < Config.memWords) :
    (m.write a v).wf := by
  refine ⟨?_, fun c hc => ?_⟩
  · induction m with
    | nil => by_cases hv : v = Config.noopFill <;> simp [Memory.write, hv]
    | cons d m ih =>
      obtain ⟨b, w⟩ := d
      obtain ⟨hlt, hpw⟩ := List.pairwise_cons.mp h.1
      have hm := Memory.wf_tail h
      unfold Memory.write
      split
      · split
        · exact h.1
        · refine List.pairwise_cons.mpr ⟨fun c hc => ?_, h.1⟩
          rcases List.mem_cons.mp hc with rfl | hc
          · assumption
          · exact Nat.lt_trans ‹_› (hlt c hc)
      · split
        · subst a
          split
          · exact hpw
          · exact List.pairwise_cons.mpr ⟨hlt, hpw⟩
        · refine List.pairwise_cons.mpr ⟨fun c hc => ?_, ih hm⟩
          rcases Memory.mem_write hc with ⟨rfl, -⟩ | hc
          · show b < a; omega
          · exact hlt c hc
  · rcases Memory.mem_write hc with ⟨rfl, hv⟩ | hc
    · exact ⟨hv, ha⟩
    · exact h.2 c hc

/-- Read after write (20_memory.md R53): the cell holds the word, every other cell is unchanged. -/
theorem Memory.read_write {m : Memory} (h : m.wf) (a b : Nat) (v : Word) :
    (m.write a v).read b = if b = a then v else m.read b := by
  induction m with
  | nil =>
    by_cases hv : v = Config.noopFill <;> simp [Memory.write, Memory.read, hv]
  | cons d m ih =>
    obtain ⟨c, w⟩ := d
    have hlt : ∀ e ∈ m, c < e.1 := (List.pairwise_cons.mp h.1).1
    have hm := ih (Memory.wf_tail h)
    unfold Memory.write
    split
    · split
      · by_cases hb : b = a
        · have hlow : ∀ e ∈ (c, w) :: m, b < e.1 := by
            intro e he
            rcases List.mem_cons.mp he with rfl | he
            · show b < c; omega
            · have := hlt e he; omega
          rw [Memory.read_of_lt_all hlow, if_pos hb]; exact (‹v = _›).symm
        · rw [if_neg hb]
      · by_cases hb : b = a <;> simp [Memory.read, hb]
    · split
      · subst c
        split
        · by_cases hb : b = a
          · rw [if_pos hb, hb, Memory.read_of_lt_all hlt]; exact (‹v = _›).symm
          · simp [Memory.read, hb]
        · by_cases hb : b = a <;> simp [Memory.read, hb]
      · by_cases hb : b = c
        · have : b ≠ a := by omega
          simp [Memory.read, hb, show c ≠ a by omega]
        · simp [Memory.read, hb, hm]

/-- Writing consecutive cells keeps the canonical form. -/
theorem Memory.wf_place {m : Memory} (h : m.wf) (k : Nat) (ws : List Word)
    (hk : k + ws.length ≤ Config.memWords) : (m.place k ws).wf := by
  induction ws generalizing m k with
  | nil => exact h
  | cons w ws ih =>
    simp only [List.length_cons] at hk
    exact ih (Memory.wf_write w h (by omega)) (k + 1) (by omega)

/-- What each cell holds after consecutive cells were written. -/
theorem Memory.read_place {m : Memory} (h : m.wf) (k : Nat) (ws : List Word)
    (hk : k + ws.length ≤ Config.memWords) (b : Nat) :
    (m.place k ws).read b = if k ≤ b ∧ b < k + ws.length then ws.getD (b - k) 0 else m.read b := by
  induction ws generalizing m k with
  | nil => rw [if_neg (by simp), Memory.place]
  | cons w ws ih =>
    simp only [List.length_cons] at hk ⊢
    rw [Memory.place, ih (Memory.wf_write w h (by omega)) (k + 1) (by omega),
      Memory.read_write h]
    by_cases hb : b = k
    · subst hb
      simp
    · by_cases hr : k + 1 ≤ b ∧ b < k + 1 + ws.length
      · have h2 : k ≤ b ∧ b < k + (ws.length + 1) := by omega
        obtain ⟨j, hj⟩ : ∃ j, b - k = j + 1 := ⟨b - k - 1, by omega⟩
        rw [if_pos hr, if_pos h2, hj, List.getD_cons_succ]
        congr 1; omega
      · have h2 : ¬(k ≤ b ∧ b < k + (ws.length + 1)) := by omega
        rw [if_neg hr, if_neg h2, if_neg hb]

end Sys2Proof.Machine
end

