-- ==== Sys2Proof/Laws/HostInterface.lean ====
section
/-! SUPPORT. The program load and the placing of an instruction keep memory in canonical form. -/

namespace Sys2Proof.Machine

/-- An image of L bytes gives L / 2 words (70_reset_and_hazards.md R275). -/
theorem length_wordsOfBytes (image : List Byte) :
    (wordsOfBytes image).length = image.length / 2 := by
  induction image using wordsOfBytes.induct with
  | case1 lo hi rest ih => simp only [wordsOfBytes, List.length_cons, ih]; omega
  | case2 x => simp [wordsOfBytes]
  | case3 => simp [wordsOfBytes]

/-- A fresh machine has nothing listed in memory. -/
theorem State.mem_of_fresh {s : State} (h : s.fresh = true) : s.mem = [] := by
  rw [show s = State.create s.stackCap s.input by simpa [State.fresh] using h]; rfl

/-- Everything the load does when it is not refused: it found a machine that was not loaded, and it
changed memory and the record of the load (70_reset_and_hazards.md R278). -/
theorem loadImage_next {image : List Byte} {s t : State} (h : loadImage image s = .next t) :
    s.fresh = true ∧ image.length / 2 ≤ Config.memWords ∧
      t = { s with mem := s.mem.place 0 (wordsOfBytes image), loaded := true } := by
  unfold loadImage at h
  split at h
  · split at h
    · cases h
    · cases h; exact ⟨‹_›, by omega, rfl⟩
  · cases h

/-- A machine that is not fresh refuses every image. -/
theorem loadImage_of_not_fresh {image : List Byte} {s : State} (h : s.fresh = false) :
    loadImage image s = .refused .loadNotFresh := by simp [loadImage, h]

/-- A loaded machine is not fresh, whatever the image left in memory. -/
theorem State.fresh_of_loaded {s : State} (h : s.loaded = true) : s.fresh = false := by
  simp only [State.fresh, decide_eq_false_iff_not]
  intro e; rw [e] at h; cases h

/-- The load keeps the canonical form. -/
theorem loadImage_wf {image : List Byte} {s t : State} (h : loadImage image s = .next t) :
    t.mem.wf := by
  obtain ⟨hf, hl, rfl⟩ := loadImage_next h
  refine Memory.wf_place (by rw [State.mem_of_fresh hf]; exact Memory.wf_nil) 0 _ ?_
  rw [length_wordsOfBytes]; omega

/-- Placing an instruction at the pc keeps the canonical form. -/
theorem placeAtPc_wf {s : State} (h : s.mem.wf) (hp : s.pc.toNat ≤ 32767) (ws : List Word) :
    (placeAtPc s ws).mem.wf := by
  refine Memory.wf_place h _ _ ?_
  simp only [List.length_take, Config.memWords]; omega

end Sys2Proof.Machine
end

