-- ==== Sys2Proof/Laws/State.lean ====
section
/-! SUPPORT. The small lemmas of State: each field after each whole-state update, true by rfl, so
that no later proof unfolds a record update; and the register file's two laws. -/

namespace Sys2Proof.Machine

@[simp] theorem State.advance_mem (s : State) (w : Nat) :
    (s.advance w).mem = s.mem := rfl
@[simp] theorem State.advance_reg (s : State) (w : Nat) :
    (s.advance w).reg = s.reg := rfl
@[simp] theorem State.advance_stack (s : State) (w : Nat) :
    (s.advance w).stack = s.stack := rfl
@[simp] theorem State.advance_pc (s : State) (w : Nat) :
    (s.advance w).pc = s.pc + BitVec.ofNat 16 w := rfl
@[simp] theorem State.advance_halted (s : State) (w : Nat) :
    (s.advance w).halted = s.halted := rfl
@[simp] theorem State.advance_fault (s : State) (w : Nat) :
    (s.advance w).fault = s.fault := rfl
@[simp] theorem State.advance_stackCap (s : State) (w : Nat) :
    (s.advance w).stackCap = s.stackCap := rfl
@[simp] theorem State.advance_input (s : State) (w : Nat) :
    (s.advance w).input = s.input := rfl
@[simp] theorem State.advance_output (s : State) (w : Nat) :
    (s.advance w).output = s.output := rfl
@[simp] theorem State.advance_consumed (s : State) (w : Nat) :
    (s.advance w).consumed = s.consumed := rfl
@[simp] theorem State.advance_loaded (s : State) (w : Nat) :
    (s.advance w).loaded = s.loaded := rfl

@[simp] theorem State.jump_mem (s : State) (v : Word) :
    (s.jump v).mem = s.mem := rfl
@[simp] theorem State.jump_reg (s : State) (v : Word) :
    (s.jump v).reg = s.reg := rfl
@[simp] theorem State.jump_stack (s : State) (v : Word) :
    (s.jump v).stack = s.stack := rfl
@[simp] theorem State.jump_pc (s : State) (v : Word) :
    (s.jump v).pc = v := rfl
@[simp] theorem State.jump_halted (s : State) (v : Word) :
    (s.jump v).halted = s.halted := rfl
@[simp] theorem State.jump_fault (s : State) (v : Word) :
    (s.jump v).fault = s.fault := rfl
@[simp] theorem State.jump_stackCap (s : State) (v : Word) :
    (s.jump v).stackCap = s.stackCap := rfl
@[simp] theorem State.jump_input (s : State) (v : Word) :
    (s.jump v).input = s.input := rfl
@[simp] theorem State.jump_output (s : State) (v : Word) :
    (s.jump v).output = s.output := rfl
@[simp] theorem State.jump_consumed (s : State) (v : Word) :
    (s.jump v).consumed = s.consumed := rfl
@[simp] theorem State.jump_loaded (s : State) (v : Word) :
    (s.jump v).loaded = s.loaded := rfl

@[simp] theorem State.writeReg_mem (s : State) (i : RegIndex) (v : Word) :
    (s.writeReg i v).mem = s.mem := rfl
@[simp] theorem State.writeReg_reg (s : State) (i : RegIndex) (v : Word) :
    (s.writeReg i v).reg = s.reg.set i.val v i.isLt := rfl
@[simp] theorem State.writeReg_stack (s : State) (i : RegIndex) (v : Word) :
    (s.writeReg i v).stack = s.stack := rfl
@[simp] theorem State.writeReg_pc (s : State) (i : RegIndex) (v : Word) :
    (s.writeReg i v).pc = s.pc := rfl
@[simp] theorem State.writeReg_halted (s : State) (i : RegIndex) (v : Word) :
    (s.writeReg i v).halted = s.halted := rfl
@[simp] theorem State.writeReg_fault (s : State) (i : RegIndex) (v : Word) :
    (s.writeReg i v).fault = s.fault := rfl
@[simp] theorem State.writeReg_stackCap (s : State) (i : RegIndex) (v : Word) :
    (s.writeReg i v).stackCap = s.stackCap := rfl
@[simp] theorem State.writeReg_input (s : State) (i : RegIndex) (v : Word) :
    (s.writeReg i v).input = s.input := rfl
@[simp] theorem State.writeReg_output (s : State) (i : RegIndex) (v : Word) :
    (s.writeReg i v).output = s.output := rfl
@[simp] theorem State.writeReg_consumed (s : State) (i : RegIndex) (v : Word) :
    (s.writeReg i v).consumed = s.consumed := rfl
@[simp] theorem State.writeReg_loaded (s : State) (i : RegIndex) (v : Word) :
    (s.writeReg i v).loaded = s.loaded := rfl

@[simp] theorem State.emit_mem (s : State) (v : Word) :
    (s.emit v).mem = s.mem := rfl
@[simp] theorem State.emit_reg (s : State) (v : Word) :
    (s.emit v).reg = s.reg := rfl
@[simp] theorem State.emit_stack (s : State) (v : Word) :
    (s.emit v).stack = s.stack := rfl
@[simp] theorem State.emit_pc (s : State) (v : Word) :
    (s.emit v).pc = s.pc := rfl
@[simp] theorem State.emit_halted (s : State) (v : Word) :
    (s.emit v).halted = s.halted := rfl
@[simp] theorem State.emit_fault (s : State) (v : Word) :
    (s.emit v).fault = s.fault := rfl
@[simp] theorem State.emit_stackCap (s : State) (v : Word) :
    (s.emit v).stackCap = s.stackCap := rfl
@[simp] theorem State.emit_input (s : State) (v : Word) :
    (s.emit v).input = s.input := rfl
@[simp] theorem State.emit_output (s : State) (v : Word) :
    (s.emit v).output = s.output ++ [v] := rfl
@[simp] theorem State.emit_consumed (s : State) (v : Word) :
    (s.emit v).consumed = s.consumed := rfl
@[simp] theorem State.emit_loaded (s : State) (v : Word) :
    (s.emit v).loaded = s.loaded := rfl

/-- A register holds the word written to it, all 16 bits (10_state.md R25). -/
@[simp] theorem State.readReg_writeReg_same (s : State) (i : RegIndex) (v : Word) :
    (s.writeReg i v).readReg i = v := by
  simp [State.readReg, State.writeReg]

/-- A write leaves every other register alone (10_state.md R24). -/
theorem State.readReg_writeReg_of_ne (s : State) (i j : RegIndex) (v : Word) (h : j ≠ i) :
    (s.writeReg i v).readReg j = s.readReg j := by
  have h' : i.val ≠ j.val := fun e => h (Fin.ext e.symm)
  simp [State.readReg, State.writeReg, h']

@[simp] theorem State.readReg_advance (s : State) (w : Nat) (i : RegIndex) :
    (s.advance w).readReg i = s.readReg i := rfl
@[simp] theorem State.readReg_jump (s : State) (v : Word) (i : RegIndex) :
    (s.jump v).readReg i = s.readReg i := rfl
@[simp] theorem State.readReg_emit (s : State) (v : Word) (i : RegIndex) :
    (s.emit v).readReg i = s.readReg i := rfl

end Sys2Proof.Machine
end

