-- ==== Sys2Proof/Laws/Ops.lean ====
section
/-! SUPPORT. One lemma for each shared operation that says once everything it can do. -/

namespace Sys2Proof.Machine

/-! Answers of the shared endings -/

theorem raise_eq (c : Cause) (op : Word) (s : State) :
    raise c op s = .next { s with halted := true, fault := some ⟨c, s.pc, op⟩ } := rfl

theorem softSkip_eq (n : Nat) (s : State) :
    softSkip n s = .next { s with pc := s.pc + BitVec.ofNat 16 (1 + n) } := rfl

theorem finishReg_eq (s : State) (d : RegIndex) (v : Word) (w : Nat) :
    finishReg s d v w =
      .next { s with reg := s.reg.set d.val v d.isLt, pc := s.pc + BitVec.ofNat 16 w } := rfl

/-! Memory accesses -/

theorem State.load_eq_some {s : State} {a v : Word} :
    s.load a = some v ↔ a.toNat < Config.memWords ∧ v = s.mem.read a.toNat := by
  simp only [State.load, inMemory]
  by_cases h : a.toNat < Config.memWords <;> simp [h, eq_comm]

theorem State.load_eq_none {s : State} {a : Word} :
    s.load a = none ↔ Config.memWords ≤ a.toNat := by
  simp only [State.load, inMemory]
  by_cases h : a.toNat < Config.memWords
  · simp [h]
  · simp [h]; omega

theorem State.store_eq_some {s t : State} {a v : Word} :
    s.store a v = some t ↔
      a.toNat < Config.memWords ∧ t = { s with mem := s.mem.write a.toNat v } := by
  simp only [State.store, inMemory]
  by_cases h : a.toNat < Config.memWords <;> simp [h, eq_comm]

theorem State.store_eq_none {s : State} {a v : Word} :
    s.store a v = none ↔ Config.memWords ≤ a.toNat := by
  simp only [State.store, inMemory]
  by_cases h : a.toNat < Config.memWords
  · simp [h]
  · simp [h]; omega

/-! The stack -/

theorem State.stackFull_iff {s : State} :
    s.stackFull = true ↔ ∃ n, s.stackCap = some n ∧ n ≤ s.stack.length := by
  unfold State.stackFull
  split <;> simp_all

theorem State.push_eq_some {s t : State} {v : Word} :
    s.push v = some t ↔ s.stackFull = false ∧ t = { s with stack := s.stack ++ [v] } := by
  cases h : s.stackFull <;> simp [State.push, h, eq_comm]

theorem State.push_eq_none {s : State} {v : Word} : s.push v = none ↔ s.stackFull = true := by
  cases h : s.stackFull <;> simp [State.push, h]

theorem State.pop_eq_some {s t : State} {v : Word} :
    s.pop = some (v, t) ↔ ∃ rest, s.stack = rest ++ [v] ∧ t = { s with stack := rest } := by
  unfold State.pop
  rcases List.eq_nil_or_concat s.stack with h | ⟨rest, w, h⟩
  · simp [h]
  · simp only [List.concat_eq_append] at h
    simp only [h, List.getLast?_append, List.getLast?_singleton, Option.some_or,
      List.dropLast_concat, Option.some.injEq, Prod.mk.injEq]
    constructor
    · rintro ⟨rfl, rfl⟩; exact ⟨rest, rfl, rfl⟩
    · rintro ⟨r, hr, rfl⟩
      obtain ⟨rfl, hv⟩ := List.append_inj' hr rfl
      exact ⟨by simpa using hv, rfl⟩

theorem State.pop_eq_none {s : State} : s.pop = none ↔ s.stack = [] := by
  unfold State.pop
  rcases List.eq_nil_or_concat s.stack with h | ⟨rest, w, h⟩ <;> simp [h]

/-! The input source -/

theorem State.receive_eq_some {s t : State} {w : Word} :
    s.receive = some (w, t) ↔
      ∃ ws, s.input = w :: ws ∧ t = { s with input := ws, consumed := s.consumed + 1 } := by
  unfold State.receive
  cases h : s.input with
  | nil => simp
  | cons v vs =>
    simp only [Option.some.injEq, Prod.mk.injEq, List.cons.injEq]
    constructor
    · rintro ⟨rfl, rfl⟩; exact ⟨vs, ⟨rfl, rfl⟩, rfl⟩
    · rintro ⟨ws, ⟨rfl, rfl⟩, rfl⟩; exact ⟨rfl, rfl⟩

theorem State.receive_eq_none {s : State} : s.receive = none ↔ s.input = [] := by
  unfold State.receive
  cases s.input <;> simp

/-! Resolution of all the operands of an instruction, one lemma for each list of roles -/

@[simp] theorem val_lit (s : State) (v : Word) : val s (.lit v) = some v := rfl
@[simp] theorem val_reg (s : State) (i : RegIndex) : val s (.reg i) = some (s.readReg i) := rfl
@[simp] theorem val_invalid (s : State) (w : Word) : val s (.invalid w) = none := rfl
@[simp] theorem dst_lit (v : Word) : dst (.lit v) = none := rfl
@[simp] theorem dst_reg (i : RegIndex) : dst (.reg i) = some i := rfl
@[simp] theorem dst_invalid (w : Word) : dst (.invalid w) = none := rfl

/-- Resolution reads registers and nothing else (40_dispatch_and_operands.md R115). -/
theorem val_of_reg_eq {s t : State} (h : t.reg = s.reg) (a : Operand) : val t a = val s a := by
  cases a <;> simp [State.readReg, h]

theorem onV_cases (a : Operand) (s : State) (k : Word → Result) :
    (val s a = none ∧ onV a s k = softSkip 1 s) ∨
      ∃ x, val s a = some x ∧ onV a s k = k x := by
  unfold onV
  cases h : val s a <;> simp

theorem onD_cases (a : Operand) (s : State) (k : RegIndex → Result) :
    (dst a = none ∧ onD a s k = softSkip 1 s) ∨
      ∃ d, dst a = some d ∧ onD a s k = k d := by
  unfold onD
  cases h : dst a <;> simp

theorem onVV_cases (a b : Operand) (s : State) (k : Word → Word → Result) :
    ((val s a = none ∨ val s b = none) ∧ onVV a b s k = softSkip 2 s) ∨
      ∃ x y, val s a = some x ∧ val s b = some y ∧ onVV a b s k = k x y := by
  unfold onVV
  cases h : val s a <;> cases h' : val s b <;> simp

theorem onDV_cases (a b : Operand) (s : State) (k : RegIndex → Word → Result) :
    ((dst a = none ∨ val s b = none) ∧ onDV a b s k = softSkip 2 s) ∨
      ∃ d x, dst a = some d ∧ val s b = some x ∧ onDV a b s k = k d x := by
  unfold onDV
  cases h : dst a <;> cases h' : val s b <;> simp

theorem onDVV_cases (a b c : Operand) (s : State) (k : RegIndex → Word → Word → Result) :
    ((dst a = none ∨ val s b = none ∨ val s c = none) ∧ onDVV a b c s k = softSkip 3 s) ∨
      ∃ d x y, dst a = some d ∧ val s b = some x ∧ val s c = some y ∧
        onDVV a b c s k = k d x y := by
  unfold onDVV
  cases h : dst a <;> cases h' : val s b <;> cases h'' : val s c <;> simp

end Sys2Proof.Machine
end

