-- ==== Sys2Proof/Laws/PerInstr.lean ====
section
/-! SUPPORT. A statement for all instructions, one lemma per constructor (LAWS.json): the encoding has
the width of the instruction, and its first word is an opcode word whose row has the operand count of
the instruction (30_encoding.md R80). -/

namespace Sys2Proof.Laws.EncodeWidth

def Statement (i : Instr) : Prop :=
  (encode i).length = i.width ∧
    ∃ op ops sh, encode i = op :: ops ∧ lookupOpcode op = some sh ∧ i.width = 1 + sh.arity

theorem halt : Statement .halt := ⟨rfl, _, _, _, rfl, rfl, rfl⟩
theorem set (a b : Operand) : Statement (.set a b) := ⟨rfl, _, _, _, rfl, rfl, rfl⟩
theorem push (a : Operand) : Statement (.push a) := ⟨rfl, _, _, _, rfl, rfl, rfl⟩
theorem pop (a : Operand) : Statement (.pop a) := ⟨rfl, _, _, _, rfl, rfl, rfl⟩
theorem eq (a b c : Operand) : Statement (.eq a b c) := ⟨rfl, _, _, _, rfl, rfl, rfl⟩
theorem gt (a b c : Operand) : Statement (.gt a b c) := ⟨rfl, _, _, _, rfl, rfl, rfl⟩
theorem jmp (a : Operand) : Statement (.jmp a) := ⟨rfl, _, _, _, rfl, rfl, rfl⟩
theorem jt (a b : Operand) : Statement (.jt a b) := ⟨rfl, _, _, _, rfl, rfl, rfl⟩
theorem jf (a b : Operand) : Statement (.jf a b) := ⟨rfl, _, _, _, rfl, rfl, rfl⟩
theorem add (a b c : Operand) : Statement (.add a b c) := ⟨rfl, _, _, _, rfl, rfl, rfl⟩
theorem mult (a b c : Operand) : Statement (.mult a b c) := ⟨rfl, _, _, _, rfl, rfl, rfl⟩
theorem mod (a b c : Operand) : Statement (.mod a b c) := ⟨rfl, _, _, _, rfl, rfl, rfl⟩
theorem and (a b c : Operand) : Statement (.and a b c) := ⟨rfl, _, _, _, rfl, rfl, rfl⟩
theorem or (a b c : Operand) : Statement (.or a b c) := ⟨rfl, _, _, _, rfl, rfl, rfl⟩
theorem not (a b : Operand) : Statement (.not a b) := ⟨rfl, _, _, _, rfl, rfl, rfl⟩
theorem rmem (a b : Operand) : Statement (.rmem a b) := ⟨rfl, _, _, _, rfl, rfl, rfl⟩
theorem wmem (a b : Operand) : Statement (.wmem a b) := ⟨rfl, _, _, _, rfl, rfl, rfl⟩
theorem call (a : Operand) : Statement (.call a) := ⟨rfl, _, _, _, rfl, rfl, rfl⟩
theorem ret : Statement .ret := ⟨rfl, _, _, _, rfl, rfl, rfl⟩
theorem outp (a : Operand) : Statement (.outp a) := ⟨rfl, _, _, _, rfl, rfl, rfl⟩
theorem inp (a : Operand) : Statement (.inp a) := ⟨rfl, _, _, _, rfl, rfl, rfl⟩
theorem noop : Statement .noop := ⟨rfl, _, _, _, rfl, rfl, rfl⟩

end Sys2Proof.Laws.EncodeWidth
end

