-- ==== Sys2Proof/Laws/Step.lean ====
section
/-! SUPPORT. Said once: what an instruction can do when it answers a next state (`Effect`), when it
answers none, and how the fetch phases split a step. -/

namespace Sys2Proof.Machine

/-- Which fatal fault an instruction takes in which state, with the opcode word it records
(60_exceptions.md R231). -/
inductive Raises (s : State) : Instr → Cause → Word → Prop where
  | push {a x} : val s a = some x → s.stackFull = true → Raises s (.push a) .stackOverflow 2
  | call {a x} : val s a = some x → s.stackFull = true → Raises s (.call a) .stackOverflow 17
  | pop {a d} : dst a = some d → s.stack = [] → Raises s (.pop a) .stackEmpty 3
  | ret : s.stack = [] → Raises s .ret .stackEmpty 18
  | mod {a b c d x y} : dst a = some d → val s b = some x → val s c = some y → y.toNat = 0 →
      Raises s (.mod a b c) .divideByZero 11
  | rmem {a b d x} : dst a = some d → val s b = some x → Config.memWords ≤ x.toNat →
      Raises s (.rmem a b) .addressOutOfRange 15
  | wmem {a b x y} : val s a = some x → val s b = some y → Config.memWords ≤ x.toNat →
      Raises s (.wmem a b) .addressOutOfRange 16

/-- The register writers that cannot fault, with the value they write. -/
inductive Writes (s : State) : Instr → RegIndex → Word → Prop where
  | set {a b d x} : dst a = some d → val s b = some x → Writes s (.set a b) d x
  | eq {a b c d x y} : dst a = some d → val s b = some x → val s c = some y →
      Writes s (.eq a b c) d (truthWord (equalWords x y))
  | gt {a b c d x y} : dst a = some d → val s b = some x → val s c = some y →
      Writes s (.gt a b c) d (truthWord (greaterWord x y))
  | add {a b c d x y} : dst a = some d → val s b = some x → val s c = some y →
      Writes s (.add a b c) d (aluAdd x y)
  | mult {a b c d x y} : dst a = some d → val s b = some x → val s c = some y →
      Writes s (.mult a b c) d (aluMult x y)
  | mod {a b c d x y} : dst a = some d → val s b = some x → val s c = some y → y.toNat ≠ 0 →
      Writes s (.mod a b c) d (BitVec.ofNat 16 (x.toNat % y.toNat))
  | and {a b c d x y} : dst a = some d → val s b = some x → val s c = some y →
      Writes s (.and a b c) d (aluAnd x y)
  | or {a b c d x y} : dst a = some d → val s b = some x → val s c = some y →
      Writes s (.or a b c) d (aluOr x y)
  | not {a b d x} : dst a = some d → val s b = some x → Writes s (.not a b) d (aluNot x)
  | rmem {a b d x} : dst a = some d → val s b = some x → x.toNat < Config.memWords →
      Writes s (.rmem a b) d (s.mem.read x.toNat)

/-- The pure jumps that are taken, with their target. -/
inductive Jumps (s : State) : Instr → Word → Prop where
  | jmp {a x} : val s a = some x → Jumps s (.jmp a) x
  | jt {a b x y} : val s a = some x → val s b = some y → isNonZero x = true → Jumps s (.jt a b) y
  | jf {a b x y} : val s a = some x → val s b = some y → isNonZero x = false → Jumps s (.jf a b) y

/-- The instructions that resolve their operands and only move past themselves. -/
inductive Passes (s : State) : Instr → Prop where
  | noop : Passes s .noop
  | jt {a b x y} : val s a = some x → val s b = some y → isNonZero x = false → Passes s (.jt a b)
  | jf {a b x y} : val s a = some x → val s b = some y → isNonZero x = true → Passes s (.jf a b)

/-- Everything an instruction can do when it answers a next state: the soft skip, a fatal fault, or
its own effect. -/
inductive Effect (s : State) : Instr → State → Prop where
  | skip {i} : i.resolvable = false →
      Effect s i { s with pc := s.pc + BitVec.ofNat 16 i.width }
  | fatal {i c op} : Raises s i c op →
      Effect s i { s with halted := true, fault := some ⟨c, s.pc, op⟩ }
  | write {i d v} : Writes s i d v →
      Effect s i { s with reg := s.reg.set d.val v d.isLt, pc := s.pc + BitVec.ofNat 16 i.width }
  | jump {i target} : Jumps s i target → Effect s i { s with pc := target }
  | pass {i} : Passes s i → Effect s i { s with pc := s.pc + BitVec.ofNat 16 i.width }
  | halt : Effect s .halt { s with halted := true, pc := s.pc + 1 }
  | push {a x} : val s a = some x → s.stackFull = false →
      Effect s (.push a) { s with stack := s.stack ++ [x], pc := s.pc + 2 }
  | pop {a d rest v} : dst a = some d → s.stack = rest ++ [v] →
      Effect s (.pop a)
        { s with reg := s.reg.set d.val v d.isLt, stack := rest, pc := s.pc + 2 }
  | call {a x} : val s a = some x → s.stackFull = false →
      Effect s (.call a) { s with stack := s.stack ++ [s.pc + 2], pc := x }
  | ret {rest v} : s.stack = rest ++ [v] → Effect s .ret { s with stack := rest, pc := v }
  | store {a b x y} : val s a = some x → val s b = some y → x.toNat < Config.memWords →
      Effect s (.wmem a b) { s with mem := s.mem.write x.toNat y, pc := s.pc + 3 }
  | emit {a x} : val s a = some x →
      Effect s (.outp a) { s with output := s.output ++ [x], pc := s.pc + 2 }
  | receive {a d w ws} : dst a = some d → s.input = w :: ws →
      Effect s (.inp a)
        { s with reg := s.reg.set d.val w d.isLt, input := ws, consumed := s.consumed + 1,
                 pc := s.pc + 2 }

theorem Operand.fits_value_iff (s : State) (a : Operand) :
    a.fits .value = false ↔ val s a = none := by cases a <;> simp [Operand.fits]

theorem Operand.fits_dest_iff (a : Operand) : a.fits .dest = false ↔ dst a = none := by
  cases a <;> simp [Operand.fits]

/-- What each meaning does, whatever the state: the one place where the meanings are unfolded. -/
theorem exec_outcome (i : Instr) (s : State) :
    (∃ t, exec i s = .next t ∧ Effect s i t) ∨
      (exec i s = .fault .inputWait ∧ s.input = [] ∧ ∃ a d, i = .inp a ∧ dst a = some d) := by
  cases i with
  | halt => exact .inl ⟨_, rfl, .halt⟩
  | noop => exact .inl ⟨_, rfl, .pass .noop⟩
  | set a b =>
    left
    rcases onDV_cases a b s fun d x => finishReg s d x 3 with ⟨h, e⟩ | ⟨d, x, ha, hb, e⟩
    · refine ⟨_, e, .skip ?_⟩
      simp only [← Operand.fits_value_iff, ← Operand.fits_dest_iff] at h
      rcases h with h | h <;> simp [Instr.resolvable, Instr.operands, h]
    · exact ⟨_, e, .write (.set ha hb)⟩
  | not a b =>
    left
    rcases onDV_cases a b s fun d x => finishReg s d (aluNot x) 3 with ⟨h, e⟩ | ⟨d, x, ha, hb, e⟩
    · refine ⟨_, e, .skip ?_⟩
      simp only [← Operand.fits_value_iff, ← Operand.fits_dest_iff] at h
      rcases h with h | h <;> simp [Instr.resolvable, Instr.operands, h]
    · exact ⟨_, e, .write (.not ha hb)⟩
  | rmem a b =>
    left
    simp only [exec, execRmem]
    rcases onDV_cases a b s _ with ⟨h, e⟩ | ⟨d, x, ha, hb, e⟩
    · refine ⟨_, e, .skip ?_⟩
      simp only [← Operand.fits_value_iff, ← Operand.fits_dest_iff] at h
      rcases h with h | h <;> simp [Instr.resolvable, Instr.operands, h]
    · rw [e]
      cases hl : s.load x with
      | none => exact ⟨_, rfl, .fatal (.rmem ha hb (State.load_eq_none.mp hl))⟩
      | some v =>
        obtain ⟨hx, rfl⟩ := State.load_eq_some.mp hl
        exact ⟨_, rfl, .write (.rmem ha hb hx)⟩
  | wmem a b =>
    left
    simp only [exec, execWmem]
    rcases onVV_cases a b s _ with ⟨h, e⟩ | ⟨x, y, ha, hb, e⟩
    · refine ⟨_, e, .skip ?_⟩
      simp only [← Operand.fits_value_iff] at h
      rcases h with h | h <;> simp [Instr.resolvable, Instr.operands, h]
    · rw [e]
      cases hl : s.store x y with
      | none => exact ⟨_, rfl, .fatal (.wmem ha hb (State.store_eq_none.mp hl))⟩
      | some t =>
        obtain ⟨hx, rfl⟩ := State.store_eq_some.mp hl
        exact ⟨_, rfl, .store ha hb hx⟩
  | jt a b =>
    left
    simp only [exec, execJt]
    rcases onVV_cases a b s _ with ⟨h, e⟩ | ⟨x, y, ha, hb, e⟩
    · refine ⟨_, e, .skip ?_⟩
      simp only [← Operand.fits_value_iff] at h
      rcases h with h | h <;> simp [Instr.resolvable, Instr.operands, h]
    · rw [e]
      cases hx : isNonZero x with
      | true => exact ⟨_, rfl, .jump (.jt ha hb hx)⟩
      | false => exact ⟨_, rfl, .pass (.jt ha hb hx)⟩
  | jf a b =>
    left
    simp only [exec, execJf]
    rcases onVV_cases a b s _ with ⟨h, e⟩ | ⟨x, y, ha, hb, e⟩
    · refine ⟨_, e, .skip ?_⟩
      simp only [← Operand.fits_value_iff] at h
      rcases h with h | h <;> simp [Instr.resolvable, Instr.operands, h]
    · rw [e]
      cases hx : isNonZero x with
      | true => exact ⟨_, rfl, .pass (.jf ha hb hx)⟩
      | false => exact ⟨_, rfl, .jump (.jf ha hb hx)⟩
  | push a =>
    left
    simp only [exec, execPush]
    rcases onV_cases a s _ with ⟨h, e⟩ | ⟨x, ha, e⟩
    · refine ⟨_, e, .skip ?_⟩
      simp [Instr.resolvable, Instr.operands, (Operand.fits_value_iff s a).mpr h]
    · rw [e]
      cases hl : s.push x with
      | none => exact ⟨_, rfl, .fatal (.push ha (State.push_eq_none.mp hl))⟩
      | some t =>
        obtain ⟨hx, rfl⟩ := State.push_eq_some.mp hl
        exact ⟨_, rfl, .push ha hx⟩
  | call a =>
    left
    simp only [exec, execCall]
    rcases onV_cases a s _ with ⟨h, e⟩ | ⟨x, ha, e⟩
    · refine ⟨_, e, .skip ?_⟩
      simp [Instr.resolvable, Instr.operands, (Operand.fits_value_iff s a).mpr h]
    · rw [e]
      cases hl : s.push (s.pc + 2) with
      | none => exact ⟨_, rfl, .fatal (.call ha (State.push_eq_none.mp hl))⟩
      | some t =>
        obtain ⟨hx, rfl⟩ := State.push_eq_some.mp hl
        exact ⟨_, rfl, .call ha hx⟩
  | jmp a =>
    left
    simp only [exec, execJmp]
    rcases onV_cases a s _ with ⟨h, e⟩ | ⟨x, ha, e⟩
    · refine ⟨_, e, .skip ?_⟩
      simp [Instr.resolvable, Instr.operands, (Operand.fits_value_iff s a).mpr h]
    · exact ⟨_, e, .jump (.jmp ha)⟩
  | outp a =>
    left
    simp only [exec, execOutp]
    rcases onV_cases a s _ with ⟨h, e⟩ | ⟨x, ha, e⟩
    · refine ⟨_, e, .skip ?_⟩
      simp [Instr.resolvable, Instr.operands, (Operand.fits_value_iff s a).mpr h]
    · exact ⟨_, e, .emit ha⟩
  | pop a =>
    left
    simp only [exec, execPop]
    rcases onD_cases a s _ with ⟨h, e⟩ | ⟨d, ha, e⟩
    · refine ⟨_, e, .skip ?_⟩
      simp [Instr.resolvable, Instr.operands, (Operand.fits_dest_iff a).mpr h]
    · rw [e]
      cases hl : s.pop with
      | none => exact ⟨_, rfl, .fatal (.pop ha (State.pop_eq_none.mp hl))⟩
      | some p =>
        obtain ⟨v, t⟩ := p
        obtain ⟨rest, hr, rfl⟩ := State.pop_eq_some.mp hl
        exact ⟨_, rfl, .pop ha hr⟩
  | ret =>
    left
    simp only [exec, execRet]
    cases hl : s.pop with
    | none => exact ⟨_, rfl, .fatal (.ret (State.pop_eq_none.mp hl))⟩
    | some p =>
      obtain ⟨v, t⟩ := p
      obtain ⟨rest, hr, rfl⟩ := State.pop_eq_some.mp hl
      exact ⟨_, rfl, .ret hr⟩
  | inp a =>
    simp only [exec, execInp]
    rcases onD_cases a s _ with ⟨h, e⟩ | ⟨d, ha, e⟩
    · refine .inl ⟨_, e, .skip ?_⟩
      simp [Instr.resolvable, Instr.operands, (Operand.fits_dest_iff a).mpr h]
    · rw [e]
      cases hl : s.receive with
      | none => exact .inr ⟨rfl, State.receive_eq_none.mp hl, a, d, rfl, ha⟩
      | some p =>
        obtain ⟨w, t⟩ := p
        obtain ⟨ws, hw, rfl⟩ := State.receive_eq_some.mp hl
        exact .inl ⟨_, rfl, .receive ha hw⟩
  | mod a b c =>
    left
    simp only [exec, execMod]
    rcases onDVV_cases a b c s _ with ⟨h, e⟩ | ⟨d, x, y, ha, hb, hc, e⟩
    · refine ⟨_, e, .skip ?_⟩
      simp only [← Operand.fits_value_iff, ← Operand.fits_dest_iff] at h
      rcases h with h | h | h <;> simp [Instr.resolvable, Instr.operands, h]
    · rw [e]
      by_cases hy : y.toNat = 0
      · exact ⟨_, by simp only [aluMod, if_pos hy]; rfl, .fatal (.mod ha hb hc hy)⟩
      · exact ⟨_, by simp only [aluMod, if_neg hy]; rfl, .write (.mod ha hb hc hy)⟩
  | eq a b c =>
    left
    simp only [exec, execEq]
    rcases onDVV_cases a b c s _ with ⟨h, e⟩ | ⟨d, x, y, ha, hb, hc, e⟩
    · refine ⟨_, e, .skip ?_⟩
      simp only [← Operand.fits_value_iff, ← Operand.fits_dest_iff] at h
      rcases h with h | h | h <;> simp [Instr.resolvable, Instr.operands, h]
    · exact ⟨_, e, .write (.eq ha hb hc)⟩
  | gt a b c =>
    left
    simp only [exec, execGt]
    rcases onDVV_cases a b c s _ with ⟨h, e⟩ | ⟨d, x, y, ha, hb, hc, e⟩
    · refine ⟨_, e, .skip ?_⟩
      simp only [← Operand.fits_value_iff, ← Operand.fits_dest_iff] at h
      rcases h with h | h | h <;> simp [Instr.resolvable, Instr.operands, h]
    · exact ⟨_, e, .write (.gt ha hb hc)⟩
  | add a b c =>
    left
    simp only [exec, execAdd]
    rcases onDVV_cases a b c s _ with ⟨h, e⟩ | ⟨d, x, y, ha, hb, hc, e⟩
    · refine ⟨_, e, .skip ?_⟩
      simp only [← Operand.fits_value_iff, ← Operand.fits_dest_iff] at h
      rcases h with h | h | h <;> simp [Instr.resolvable, Instr.operands, h]
    · exact ⟨_, e, .write (.add ha hb hc)⟩
  | mult a b c =>
    left
    simp only [exec, execMult]
    rcases onDVV_cases a b c s _ with ⟨h, e⟩ | ⟨d, x, y, ha, hb, hc, e⟩
    · refine ⟨_, e, .skip ?_⟩
      simp only [← Operand.fits_value_iff, ← Operand.fits_dest_iff] at h
      rcases h with h | h | h <;> simp [Instr.resolvable, Instr.operands, h]
    · exact ⟨_, e, .write (.mult ha hb hc)⟩
  | and a b c =>
    left
    simp only [exec, execAnd]
    rcases onDVV_cases a b c s _ with ⟨h, e⟩ | ⟨d, x, y, ha, hb, hc, e⟩
    · refine ⟨_, e, .skip ?_⟩
      simp only [← Operand.fits_value_iff, ← Operand.fits_dest_iff] at h
      rcases h with h | h | h <;> simp [Instr.resolvable, Instr.operands, h]
    · exact ⟨_, e, .write (.and ha hb hc)⟩
  | or a b c =>
    left
    simp only [exec, execOr]
    rcases onDVV_cases a b c s _ with ⟨h, e⟩ | ⟨d, x, y, ha, hb, hc, e⟩
    · refine ⟨_, e, .skip ?_⟩
      simp only [← Operand.fits_value_iff, ← Operand.fits_dest_iff] at h
      rcases h with h | h | h <;> simp [Instr.resolvable, Instr.operands, h]
    · exact ⟨_, e, .write (.or ha hb hc)⟩

/-- The inversion: a next state of an instruction is one of its effects. -/
theorem exec_effect {i : Instr} {s t : State} (h : exec i s = .next t) : Effect s i t := by
  rcases exec_outcome i s with ⟨u, e, hu⟩ | ⟨e, -⟩
  · rw [e] at h; cases h; exact hu
  · rw [e] at h; cases h

/-- An instruction stops without a next state only as an `in` that waits. -/
theorem exec_fault {i : Instr} {s : State} {f : Fault} (h : exec i s = .fault f) :
    f = .inputWait ∧ s.input = [] ∧ ∃ a d, i = .inp a ∧ dst a = some d := by
  rcases exec_outcome i s with ⟨u, e, -⟩ | ⟨e, hi⟩
  · rw [e] at h; cases h
  · rw [e] at h; cases h; exact ⟨rfl, hi⟩

/-! The fetch phases -/

theorem fetch_outside {s : State} : fetch s = .outside ↔ 32767 < s.pc.toNat := by
  unfold fetch
  split
  · simp [*]
  · split
    · simp; omega
    · split <;> simp <;> omega

theorem fetch_instr {s : State} {i : Instr} (h : fetch s = .instr i) :
    s.pc.toNat ≤ 32767 ∧ ∃ sh, lookupOpcode (s.mem.read s.pc.toNat) = some sh ∧
      s.pc.toNat + sh.arity ≤ 32767 ∧ i = sh.build fun k => s.mem.read (s.pc.toNat + k) := by
  unfold fetch at h
  split at h
  · cases h
  · split at h
    · cases h
    · split at h
      · cases h
      · cases h
        exact ⟨by omega, _, ‹_›, by omega, rfl⟩

theorem fetch_failed {s : State} {c : Cause} {op : Word} (h : fetch s = .failed c op) :
    s.pc.toNat ≤ 32767 ∧ op = s.mem.read s.pc.toNat ∧
      ((c = .decodeFault ∧ lookupOpcode op = none) ∨
        (c = .operandFetchOutOfRange ∧ ∃ sh, lookupOpcode op = some sh ∧
          32767 < s.pc.toNat + sh.arity)) := by
  unfold fetch at h
  split at h
  · cases h
  · split at h
    · cases h
      exact ⟨by omega, rfl, .inl ⟨rfl, ‹_›⟩⟩
    · split at h
      · cases h
        exact ⟨by omega, rfl, .inr ⟨rfl, _, ‹_›, by omega⟩⟩
      · cases h

/-- A step of a running machine, by what its fetch phases find. -/
theorem step_running {s : State} (h : s.halted = false) :
    step s = match fetch s with
      | .outside => .next { s with halted := true }
      | .failed c op => .next { s with halted := true, fault := some ⟨c, s.pc, op⟩ }
      | .instr i => exec i s := by
  unfold step
  simp only [h, Bool.false_eq_true, if_false]
  rfl

end Sys2Proof.Machine
end

