-- ==== Sys2Proof/Tests/Slice0.lean ====
section
/-! SUPPORT. Tests of single steps. Every expected value is one of the spec's own: the vectors V<n>,
LD<n> and the examples S<n> of spec/95_test_vectors.md, or the words of 30_encoding.md R86. -/

namespace Sys2Proof.Tests

open Sys2Proof Sys2Proof.Machine

/-- A reset machine with words placed at an address, the pc on the first of them. -/
def prog (pc : Word) (ws : List Word) : State :=
  { State.reset with pc := pc, mem := Memory.place [] pc.toNat ws }

/-- The same with one register preset. -/
def prog1 (pc : Word) (ws : List Word) (i : RegIndex) (v : Word) : State := (prog pc ws).writeReg i v

/-- One or two fields of the next state. -/
def see {α : Type} (r : Result) (f : State → α) : Option α :=
  match r with
  | .next t => some (f t)
  | .fault _ => none
  | .refused _ => none

/-! Well-formedness refuses an ill-formed term for each check -/

theorem wf_refuses_literal_32768 : (Operand.lit 32768).wf = false := by decide
theorem wf_refuses_invalid_32775 : (Operand.invalid 32775).wf = false := by decide
theorem wf_refuses_each_position :
    (Instr.add (.lit 40000) (.lit 0) (.lit 0)).wf = false ∧
    (Instr.add (.reg 0) (.invalid 7) (.lit 0)).wf = false ∧
    (Instr.add (.reg 0) (.lit 0) (.lit 65535)).wf = false := by decide

/-! Decoding: for every instruction a word sequence written out from 30_encoding.md R86 -/

theorem decode_F0 : decode [0] = .ok (.halt, []) ∧ decode [18] = .ok (.ret, []) ∧
    decode [21, 7] = .ok (.noop, [7]) := ⟨rfl, rfl, rfl⟩
theorem decode_F1 : decode [2, 32769] = .ok (.push (.reg 1), []) ∧
    decode [3, 32770] = .ok (.pop (.reg 2), []) ∧ decode [6, 100] = .ok (.jmp (.lit 100), []) ∧
    decode [17, 4000] = .ok (.call (.lit 4000), []) ∧
    decode [19, 10] = .ok (.outp (.lit 10), []) ∧
    decode [20, 32771] = .ok (.inp (.reg 3), []) := ⟨rfl, rfl, rfl, rfl, rfl, rfl⟩
theorem decode_F2 : decode [1, 32768, 5] = .ok (.set (.reg 0) (.lit 5), []) ∧
    decode [7, 32768, 6] = .ok (.jt (.reg 0) (.lit 6), []) ∧
    decode [8, 32771, 3] = .ok (.jf (.reg 3) (.lit 3), []) ∧
    decode [14, 32768, 21845] = .ok (.not (.reg 0) (.lit 21845), []) ∧
    decode [15, 32768, 100] = .ok (.rmem (.reg 0) (.lit 100), []) ∧
    decode [16, 100, 32768] = .ok (.wmem (.lit 100) (.reg 0), []) := ⟨rfl, rfl, rfl, rfl, rfl, rfl⟩
theorem decode_F3 : decode [4, 32768, 32769, 65] = .ok (.eq (.reg 0) (.reg 1) (.lit 65), []) ∧
    decode [5, 32768, 10, 3] = .ok (.gt (.reg 0) (.lit 10) (.lit 3), []) ∧
    decode [9, 32768, 32769, 4] = .ok (.add (.reg 0) (.reg 1) (.lit 4), []) ∧
    decode [10, 32768, 300, 301] = .ok (.mult (.reg 0) (.lit 300) (.lit 301), []) ∧
    decode [11, 32768, 17, 5] = .ok (.mod (.reg 0) (.lit 17) (.lit 5), []) ∧
    decode [12, 32768, 12, 10] = .ok (.and (.reg 0) (.lit 12) (.lit 10), []) ∧
    decode [13, 32775, 12, 10] = .ok (.or (.reg 7) (.lit 12) (.lit 10), []) :=
  ⟨rfl, rfl, rfl, rfl, rfl, rfl, rfl⟩
theorem decode_rejects : decode [22] = .error (.illegalOpcode 22) ∧
    decode [265, 1, 2, 3] = .error (.illegalOpcode 265) ∧
    decode [1, 32768] = .error (.missingOperand 1) ∧ decode [] = .error .noWord :=
  ⟨rfl, rfl, rfl, rfl⟩
/-- One word written out bit by bit (R83): 0x8007 names register 7, 0x8008 is invalid. -/
theorem classify_bits : classify 0b1000000000000111 = .reg 7 ∧
    classify 0b1000000000001000 = .invalid 0x8008 ∧ classify 0b0111111111111111 = .lit 0x7FFF := by
  decide
/-- The table's bit numbering: bits 31..16 are the second word. -/
theorem decodeTableWord_second_word :
    decodeTableWord 48 (1 + 65536 * 32768 + 4294967296 * 5) = some (.set (.reg 0) (.lit 5)) ∧
    decodeTableWord 16 9 = some (.add (.lit 0) (.lit 0) (.lit 0)) := by decide
/-- Every row of the table, its operand words 0, is read and run as the first instruction. -/
theorem every_row_runs : ∀ op ∈ List.range 22, (decodeTableWord 16 op).isSome = true ∧
    (see (step (State.reset.withFetchWord 16 op)) fun _ => ()).isSome = true := by decide

/-! The phases of a step -/

theorem guard_V1 : see (step (prog 32768 [])) (fun t => (t.pc, t.status)) =
    some (32768, true, none) := by decide
theorem illegal_V5 : see (step (prog 0 [265])) (fun t => (t.pc, t.status)) =
    some (0, true, some ⟨.decodeFault, 0, 265⟩) := by decide
theorem operand_V7 : see (step (prog 32766 [1, 5])) (fun t => (t.pc, t.status)) =
    some (32766, true, some ⟨.operandFetchOutOfRange, 32766, 1⟩) := by decide
theorem last_place_V9 : see (step (prog 32764 [9, 32768, 1, 2])) (fun t => (t.reg[0], t.pc)) =
    some (3, 32768) := by decide
theorem skip_V12 : see (step (prog1 0 [9, 32768, 32776, 1] 0 9)) (fun t => (t.reg[0], t.pc)) =
    some (9, 4) := by decide
theorem halted_has_no_step : step { prog 0 [21] with halted := true } = .fault .halted := rfl

/-! One or two steps for each instruction -/

theorem set_V17 : see (step (prog1 0 [1, 32768, 32769] 1 40000)) (fun t => (t.reg[0], t.pc)) =
    some (40000, 3) := by decide
theorem set_V15 : see (step (prog1 0 [1, 32770, 32768] 0 32769)) (fun t => t.reg[2]) =
    some 32769 := by decide
theorem push_V22 : see (step { prog1 10 [2, 32769] 1 7 with stack := [3] })
    (fun t => (t.stack, t.pc)) = some ([3, 7], 12) := by decide
theorem push_V25 : see (step { prog 0 [2, 1] with stack := [8, 9], stackCap := some 2 })
    (fun t => (t.stack, t.fault)) = some ([8, 9], some ⟨.stackOverflow, 0, 2⟩) := by decide
theorem pop_V26 : see (step { prog 4 [3, 32770] with stack := [3, 7] })
    (fun t => (t.reg[2], t.stack, t.pc)) = some (7, [3], 6) := by decide
theorem pop_V29 : see (step (prog 0 [3, 5])) (fun t => (t.pc, t.status)) =
    some (2, false, none) := by decide
theorem eq_V34 : see (step (prog1 0 [4, 32768, 32769, 0] 1 32768)) (fun t => t.reg[0]) =
    some 0 := by decide
theorem eq_V33 : see (step (prog1 0 [4, 32768, 32768, 32768] 0 1234)) (fun t => t.reg[0]) =
    some 1 := by decide
theorem gt_V37 : see (step (prog1 0 [5, 32768, 3, 10] 0 1)) (fun t => t.reg[0]) = some 0 := by decide
theorem gt_V39 : see (step (prog1 0 [5, 32768, 32769, 32767] 1 40000)) (fun t => t.reg[0]) =
    some 1 := by decide
theorem halt_V42 : see (step (prog 8 [0])) (fun t => (t.pc, t.status)) =
    some (9, true, none) := by decide
theorem jmp_V45 : see (step (prog1 0 [6, 32768] 0 40000)) (fun t => t.pc) = some 40000 := by decide
theorem jt_V50 : see (step (prog1 14 [7, 32768, 6] 0 32768)) (fun t => t.pc) = some 6 := by decide
theorem jt_V52 : see (step (prog 14 [7, 1, 32776])) (fun t => t.pc) = some 17 := by decide
theorem jf_V56 : see (step (prog1 18 [8, 32771, 3] 3 32768)) (fun t => t.pc) = some 21 := by decide
theorem jf_V57 : see (step (prog1 18 [8, 0, 32769] 1 500)) (fun t => t.pc) = some 500 := by decide
theorem add_V73 : see (step ((prog1 0 [9, 32768, 32769, 32770] 1 65535).writeReg 2 65535))
    (fun t => t.reg[0]) = some 32766 := by decide
theorem add_V71 : see (step (prog1 0 [9, 32768, 32768, 32768] 0 20000)) (fun t => t.reg[0]) =
    some 7232 := by decide
theorem mult_V79 : see (step (prog1 0 [10, 32768, 32769, 32769] 1 65535)) (fun t => t.reg[0]) =
    some 1 := by decide
theorem mod_V86 : see (step ((prog1 0 [11, 32768, 32769, 32770] 1 40000).writeReg 2 50000))
    (fun t => t.reg[0]) = some 40000 := by decide
theorem mod_V88 : see (step (prog1 0 [11, 32768, 5, 0] 0 9)) (fun t => (t.reg[0], t.pc, t.fault)) =
    some (9, 0, some ⟨.divideByZero, 0, 11⟩) := by decide
theorem and_V94 : see (step ((prog1 0 [12, 32768, 32769, 32770] 1 40000).writeReg 2 49152))
    (fun t => t.reg[0]) = some 0 := by decide
theorem or_V97 : see (step (prog1 0 [13, 32768, 32769, 5] 1 32768)) (fun t => t.reg[0]) =
    some 5 := by decide
theorem not_V105 : see (step (prog1 0 [14, 32768, 32769] 1 40000)) (fun t => (t.reg[0], t.pc)) =
    some (25535, 3) := by decide
theorem not_V100 : see (step (prog 0 [14, 32768, 32767])) (fun t => t.reg[0]) = some 0 := by decide
theorem rmem_V111 : see (step (prog 0 [15, 32768, 9999])) (fun t => (t.reg[0], t.pc)) =
    some (21, 3) := by decide
theorem rmem_V114 : see (step (prog1 0 [15, 32768, 32769] 1 32768)) (fun t => (t.reg[0], t.fault)) =
    some (0, some ⟨.addressOutOfRange, 0, 15⟩) := by decide
theorem wmem_V118 : see (step ((prog1 0 [16, 32768, 32769] 0 200).writeReg 1 40000))
    (fun t => (t.mem.read 200, t.mem.read 0, t.pc)) = some (40000, 16, 3) := by decide
theorem wmem_V124 : see (step (prog 0 [16, 0, 0])) (fun t => (t.mem.read 0, t.pc)) =
    some (0, 3) := by decide
theorem call_V61 : see (step (prog 32766 [17, 0])) (fun t => (t.stack, t.pc)) =
    some ([32768], 0) := by decide
theorem call_V62 : see (step { prog 10 [17, 50] with stack := [1], stackCap := some 1 })
    (fun t => (t.pc, t.stack, t.fault)) = some (10, [1], some ⟨.stackOverflow, 10, 17⟩) := by decide
theorem ret_V65 : see (step { prog 7 [18] with stack := [3, 40000] })
    (fun t => (t.stack, t.pc)) = some ([3], 40000) := by decide
theorem ret_V64 : see (step (prog 7 [18])) (fun t => (t.pc, t.fault)) =
    some (7, some ⟨.stackEmpty, 7, 18⟩) := by decide
theorem out_V128 : see (step { prog1 0 [19, 32768] 0 40000 with output := [1] })
    (fun t => (t.output, t.pc)) = some ([1, 40000], 2) := by decide
theorem in_V131 : see (step { prog 0 [20, 32771] with input := [40000, 7] })
    (fun t => (t.reg[3], t.input, t.consumed)) = some (40000, [7], 1) := by decide
theorem in_V134 : step (prog 0 [20, 32768]) = .fault .inputWait := rfl
theorem noop_V66 : see (step (prog 5 [21])) (fun t => t.pc) = some 6 := by decide

/-! Program load -/

/-- LD4, LD5: the low byte first. -/
theorem load_LD5 : see (loadImage [0x34, 0x12, 0xFF] State.reset)
    (fun t => (t.mem.read 0, t.mem.read 1)) = some (0x1234, 21) := by decide
/-- LD3: the loaded word 21 is the reset fill and is not listed. -/
theorem load_LD3 : see (loadImage [0x15, 0x00, 0xFF] State.reset) (fun t => t.mem) = some [] := by
  decide
/-- R278: a second load is refused, also after an image that left every cell at 21 (LD1, LD2, LD3). -/
theorem load_twice_refused : ∀ image ∈ ([[], [0x00], [0x15, 0x00, 0xFF], [0x34, 0x12]] : List (List Byte)),
    see (loadImage image State.reset) (fun t => (t.loaded, (see (loadImage [1, 0] t) fun _ => ()).isSome)) =
      some (true, false) := by decide
theorem load_after_a_step_refused : see (step State.reset) (fun t => t.fresh) = some false := by decide
theorem fault_codes : [Cause.decodeFault, .stackEmpty, .divideByZero, .addressOutOfRange,
    .operandFetchOutOfRange, .stackOverflow].map Cause.code = [1, 2, 3, 4, 5, 6] ∧
    State.reset.faultCode = 0 := by decide

end Sys2Proof.Tests
end

