-- ==== Sys2Proof/Tests/Witnesses.lean ====
section
/-! SUPPORT. For every statement of Certificates/Slice0/Obligations.lean that has hypotheses, one
theorem `meets_<statement>`: concrete states and operands that meet them, for each clause at the
boundary of its range. -/

namespace Sys2Proof.Tests

open Sys2Proof Sys2Proof.Machine

/-- A proper running machine on which the clauses below are tried: `wmem 3, 22` at 0, a word on the
stack, an input word. -/
def busy : State := { prog1 0 [16, 3, 22] 7 65535 with stack := [102], input := [65] }

/-- The machine with room for exactly one more word on its stack. -/
def nearlyFull : State := { busy with stackCap := some 2 }

/-- The machine whose stack is full. -/
def full : State := { busy with stackCap := some 1 }

/-! Encoding and the step -/

theorem meets_DecodeOfEncode :
    (Instr.add (.reg 7) (.lit 32767) (.invalid 32776)).wf = true ∧ Instr.halt.wf = true := by decide
theorem meets_EncodeOfDecode :
    decode [9, 32775, 32767, 32776, 1] =
      .ok (.add (.reg 7) (.lit 32767) (.invalid 32776), [1]) := rfl
theorem meets_OperandWordClasses :
    (32767 : Word).toNat ≤ 32767 ∧ (32768 : Word).toNat = 32768 + (0 : Fin 8).val ∧
    (32775 : Word).toNat = 32768 + (7 : Fin 8).val ∧ 32776 ≤ (32776 : Word).toNat := by decide
theorem meets_OpcodeIsTheWholeWord :
    (21 : Word).toNat ≤ 21 ∧ 22 ≤ (22 : Word).toNat ∧ lookupOpcode 0 = some (.f0 .halt) ∧
    (prog 32767 [22]).halted = false ∧ (prog 32767 [22]).pc.toNat ≤ 32767 ∧
    22 ≤ ((prog 32767 [22]).mem.read (prog 32767 [22]).pc.toNat).toNat :=
  ⟨by decide, by decide, rfl, by decide, by decide, by decide⟩
theorem meets_StepRunsDecodedInstruction :
    (prog 32764 [9, 32768, 1, 2]).halted = false ∧
    (prog 32764 [9, 32768, 1, 2]).pc.toNat + 4 ≤ 32768 ∧
    decode ((List.range 4).map fun k => (prog 32764 [9, 32768, 1, 2]).mem.read
      ((prog 32764 [9, 32768, 1, 2]).pc.toNat + k)) = .ok (.add (.reg 0) (.lit 1) (.lit 2), []) :=
  ⟨by decide, by decide, rfl⟩
theorem meets_HaltedMachineHasNoStep : ({ busy with halted := true }).halted = true := rfl
theorem meets_HaltGuardStops :
    (prog 32768 []).halted = false ∧ 32767 < (prog 32768 []).pc.toNat := by decide
theorem meets_DecodeFaultTaken :
    (prog 32767 [22]).halted = false ∧ (prog 32767 [22]).pc.toNat ≤ 32767 ∧
    21 < ((prog 32767 [22]).mem.read (prog 32767 [22]).pc.toNat).toNat := by decide
theorem meets_OperandBeyondMemoryFaults :
    (prog 32767 [2]).halted = false ∧ (prog 32767 [2]).pc.toNat ≤ 32767 ∧
    lookupOpcode ((prog 32767 [2]).mem.read (prog 32767 [2]).pc.toNat) = some (.f1 .push) ∧
    32767 < (prog 32767 [2]).pc.toNat + (Shape.f1 .push).arity :=
  ⟨by decide, by decide, rfl, by decide⟩
theorem meets_StepOutcomes : busy.halted = false ∧ busy.fault = none := by decide
theorem meets_ThreeWaysToEndARun :
    see (step (prog 32768 [])) State.halted = some true ∧
    see (step (prog 32767 [0])) State.halted = some true ∧
    see (step (prog 32767 [22])) State.halted = some true := by decide
theorem meets_ValueResolution :
    (32767 : Word).toNat ≤ 32767 ∧ (32768 : Word).toNat = 32768 + (0 : Fin 8).val ∧
    (32775 : Word).toNat = 32768 + (7 : Fin 8).val ∧ 32776 ≤ (32776 : Word).toNat := by decide
theorem meets_DestinationResolution :
    (0 : Word).toNat ≤ 32767 ∧ (32768 : Word).toNat = 32768 + (0 : Fin 8).val ∧
    (32775 : Word).toNat = 32768 + (7 : Fin 8).val ∧ 32776 ≤ (65535 : Word).toNat := by decide
theorem meets_SoftSkipHasNoEffect :
    ((Role.value, Operand.invalid 32776) ∈ (Instr.call (.invalid 32776)).operands ∧
      val busy (.invalid 32776) = none) ∧
    (Role.dest, Operand.lit 32767) ∈ (Instr.pop (.lit 32767)).operands ∧
      dst (.lit 32767) = none := by decide

/-! The instructions: first the resolved operands, then the unresolvable one -/

theorem meets_SetCopiesValue : dst (.reg 7) = some 7 ∧ val busy (.reg 7) = some 65535 ∧
    dst (.lit 0) = none ∧ val busy (.invalid 32776) = none := by decide
theorem meets_PushAppendsValue : val busy (.lit 32767) = some 32767 ∧
    (∀ n, nearlyFull.stackCap = some n → nearlyFull.stack.length < n) ∧
    full.stackCap = some 1 ∧ 1 ≤ full.stack.length ∧ val busy (.invalid 65535) = none :=
  ⟨by decide, fun n h => (by cases h; decide), by decide, by decide, by decide⟩
theorem meets_PopTakesTheTop : dst (.reg 0) = some 0 ∧ busy.stack = [] ++ [102] ∧
    (prog 0 [3]).stack = [] ∧ dst (.invalid 32776) = none := by decide
theorem meets_EqWritesOneOrZero : dst (.reg 0) = some 0 ∧ val busy (.lit 0) = some 0 ∧
    val busy (.reg 7) = some 65535 ∧ dst (.lit 0) = none ∧ val busy (.invalid 32776) = none := by
  decide
theorem meets_GtWritesOneOrZero : dst (.reg 0) = some 0 ∧ val busy (.reg 7) = some 65535 ∧
    val busy (.lit 32767) = some 32767 ∧ dst (.lit 0) = none ∧
    val busy (.invalid 32776) = none := by decide
theorem meets_HaltStopsTheMachine : see (exec .halt busy) State.halted = some true := by decide
theorem meets_JmpLoadsTarget : val busy (.reg 7) = some 65535 ∧ busy.halted = false ∧
    32767 < (65535 : Word).toNat ∧ val busy (.invalid 32776) = none := by decide
theorem meets_JtJumpsIfNonZero : val busy (.reg 7) = some 65535 ∧ val busy (.lit 0) = some 0 ∧
    val busy (.invalid 32776) = none := by decide
theorem meets_JfJumpsIfZero : val busy (.lit 0) = some 0 ∧ val busy (.lit 32767) = some 32767 ∧
    val busy (.invalid 32776) = none := by decide
theorem meets_CallPushesReturnAddress : val busy (.reg 7) = some 65535 ∧
    (∀ n, busy.stackCap = some n → busy.stack.length < n) ∧
    full.stackCap = some 1 ∧ 1 ≤ full.stack.length ∧ val busy (.invalid 32776) = none :=
  ⟨by decide, fun n h => (by cases h), by decide, by decide, by decide⟩
theorem meets_RetPopsThePc : busy.stack = [] ++ [102] ∧ (prog 0 [18]).stack = [] := by decide
theorem meets_NoopOnlyAdvances : (prog 32767 [21]).halted = false ∧ (prog 32767 [21]).pc = 32767 ∧
    see (exec .noop (prog 32767 [21])) State.pc = some 32768 := by decide
theorem meets_AddModulo32768 : dst (.reg 7) = some 7 ∧ val busy (.reg 7) = some 65535 ∧
    val busy (.lit 1) = some 1 ∧ dst (.lit 0) = none ∧ val busy (.invalid 32776) = none := by decide
theorem meets_MultModulo32768 : dst (.reg 7) = some 7 ∧ val busy (.reg 7) = some 65535 ∧
    val busy (.lit 2) = some 2 ∧ dst (.lit 0) = none ∧ val busy (.invalid 32776) = none := by decide
theorem meets_ModLeavesRemainder : dst (.reg 7) = some 7 ∧ val busy (.reg 7) = some 65535 ∧
    val busy (.lit 1) = some 1 ∧ (1 : Word) ≠ 0 ∧ val busy (.lit 0) = some 0 ∧
    dst (.lit 0) = none ∧ val busy (.invalid 32776) = none := by decide
theorem meets_AndModulo32768 : dst (.reg 7) = some 7 ∧ val busy (.reg 7) = some 65535 ∧
    val busy (.lit 32767) = some 32767 ∧ dst (.lit 0) = none ∧
    val busy (.invalid 32776) = none := by decide
theorem meets_OrModulo32768 : dst (.reg 7) = some 7 ∧ val busy (.reg 7) = some 65535 ∧
    val busy (.lit 0) = some 0 ∧ dst (.lit 0) = none ∧ val busy (.invalid 32776) = none := by decide
theorem meets_NotComplements15Bits : dst (.reg 7) = some 7 ∧ val busy (.reg 7) = some 65535 ∧
    see (exec (.not (.reg 7) (.reg 7)) busy) (fun t => see (exec (.not (.reg 7) (.reg 7)) t)
      fun u => u.reg[7].toNat) = some (some 32767) ∧
    dst (.lit 0) = none ∧ val busy (.invalid 32776) = none := by decide
theorem meets_ReducedResultsFit15Bits : dst (.reg 0) = some 0 ∧ val busy (.reg 7) = some 65535 ∧
    (see (exec (.add (.reg 0) (.reg 7) (.reg 7)) busy) fun _ => ()) = some () ∧
    (see (exec (.not (.reg 0) (.reg 7)) busy) fun _ => ()) = some () := by decide
theorem meets_NarrowAccumulatorsSuffice : dst (.reg 0) = some 0 ∧ val busy (.reg 7) = some 65535 ∧
    val busy (.lit 32767) = some 32767 := by decide
theorem meets_RmemLoadsTheCell : dst (.reg 0) = some 0 ∧ val busy (.lit 32767) = some 32767 ∧
    (32767 : Word).toNat ≤ 32767 ∧ val (prog1 0 [] 1 32768) (.reg 1) = some 32768 ∧
    32767 < (32768 : Word).toNat ∧ dst (.lit 0) = none ∧ val busy (.invalid 32776) = none := by
  decide
theorem meets_WmemStoresTheWord : val busy (.lit 32767) = some 32767 ∧
    val busy (.reg 7) = some 65535 ∧ (32767 : Word).toNat ≤ 32767 ∧ busy.mem.wf ∧
    val (prog1 0 [] 1 32768) (.reg 1) = some 32768 ∧ 32767 < (32768 : Word).toNat ∧
    val busy (.invalid 32776) = none := by decide
theorem meets_NextFetchSeesTheStore : busy.halted = false ∧ busy.mem.wf ∧
    val busy (.lit 3) = some 3 ∧ val busy (.lit 22) = some 22 ∧ (3 : Word).toNat ≤ 32767 ∧
    3 = busy.pc + 3 ∧ (see (exec (.wmem (.lit 3) (.lit 22)) busy) fun _ => ()) = some () ∧
    21 < (22 : Word).toNat ∧ val busy (.lit 0) = some 0 ∧ val busy (.lit 21) = some 21 := by decide
theorem meets_CanonicalMemoriesAgree : Memory.wf [(0, 20), (32767, 0)] ∧
    (∀ a, Memory.read [(0, 20), (32767, 0)] a = Memory.read [(0, 20), (32767, 0)] a) :=
  ⟨by decide, fun _ => rfl⟩
theorem meets_OutEmitsOneWord : val busy (.reg 7) = some 65535 ∧
    val busy (.invalid 32776) = none := by decide
theorem meets_InTakesOneWord : dst (.reg 7) = some 7 ∧ busy.input = 65 :: [] ∧
    (prog 0 [20]).input = [] ∧ dst (.lit 32767) = none := by decide
theorem meets_WaitingInResumes : step (prog 32766 [20, 32775]) = .fault .inputWait := rfl

/-! Frames, sequences, reset and load -/

theorem meets_RegisterFrame :
    (see (exec (.add (.reg 7) (.lit 1) (.lit 2)) busy) fun _ => ()) = some () ∧
    (∀ a, (Role.dest, a) ∈ (Instr.add (.reg 7) (.lit 1) (.lit 2)).operands →
      dst a ≠ some 0) := by
  refine ⟨by decide, fun a h => ?_⟩
  simp only [Instr.operands, List.mem_cons, Prod.mk.injEq, true_and, reduceCtorEq, false_and,
    List.not_mem_nil, or_false] at h
  subst h; decide
theorem meets_MemoryFrame : busy.mem.wf ∧
    (see (exec (.wmem (.lit 3) (.lit 22)) busy) fun _ => ()) = some () ∧
    (∀ a b x, Instr.wmem (.lit 3) (.lit 22) = .wmem a b → val busy a = some x →
      x.toNat ≠ 32767) := by
  refine ⟨by decide, by decide, fun a b x h hx => ?_⟩
  cases h; cases hx; decide
theorem meets_StackAndStreamFrame : see (exec (.push (.reg 7)) busy) State.stack =
    some [102, 65535] ∧ see (exec .ret busy) State.stack = some [] ∧
    see (exec (.outp (.lit 10)) busy) State.output = some [10] ∧
    see (exec (.inp (.reg 0)) busy) State.input = some [] := by decide
theorem meets_StatusFrame : see (exec (.push (.lit 1)) full) State.status =
    some (true, some ⟨.stackOverflow, 0, 2⟩) ∧ see (exec .halt busy) State.status =
    some (true, none) ∧ see (exec .noop busy) State.status = some (false, none) := by decide
theorem meets_PcAfterAnInstruction : see (exec (.jmp (.reg 7)) busy) State.pc = some 65535 ∧
    see (exec .ret busy) State.pc = some 102 ∧ see (exec .noop busy) State.pc = some 1 ∧
    see (exec (.jt (.lit 1) (.lit 9)) busy) State.pc = some 9 ∧
    see (exec (.push (.lit 1)) full) State.pc = some 0 := by decide
theorem meets_OutputTraceIsNeverRead : (see (step busy) fun _ => ()) = some () ∧
    step (prog 0 [20, 32768]) = .fault .inputWait := ⟨by decide, rfl⟩
theorem meets_StackIsSeenByFourInstructions :
    (∀ a, Instr.inp (.reg 0) ≠ .push a ∧ Instr.inp (.reg 0) ≠ .pop a ∧ Instr.inp (.reg 0) ≠ .call a) ∧
    Instr.inp (.reg 0) ≠ .ret ∧ (see (exec (.inp (.reg 0)) busy) fun _ => ()) = some () ∧
    exec (.inp (.reg 0)) (prog 0 []) = .fault .inputWait :=
  ⟨fun _ => ⟨nofun, nofun, nofun⟩, nofun, by decide, rfl⟩
theorem meets_PopReturnsWhatPushStored : val busy (.reg 7) = some 65535 ∧
    dst (.reg 0) = some 0 ∧ (∀ n, nearlyFull.stackCap = some n → nearlyFull.stack.length < n) :=
  ⟨by decide, by decide, fun n h => (by cases h; decide)⟩
theorem meets_RetReturnsBehindTheCall : val nearlyFull (.lit 4000) = some 4000 ∧
    (∀ n, nearlyFull.stackCap = some n → nearlyFull.stack.length < n) ∧
    see (exec (.call (.lit 4000)) nearlyFull) (fun t => (t.pc, t.stack)) =
      some (4000, ({ busy with stack := [102, 2] }).stack) :=
  ⟨by decide, fun n h => (by cases h; decide), by decide⟩
theorem meets_LoadPlacesTheImage : State.reset.fresh = true ∧
    (State.create (some 4) [65]).fresh = true ∧ ([1, 2, 3] : List Byte).length / 2 ≤ 32768 ∧
    0 < ([1, 2, 3] : List Byte).length / 2 := by decide
theorem meets_LoadRefusals : State.reset.fresh = true ∧ ({ State.reset with loaded := true }).loaded = true ∧
    32768 < (List.replicate 65538 (0 : Byte)).length / 2 ∧ (prog 5 []).pc ≠ 0 ∧
    busy.stack ≠ [] ∧ busy.mem ≠ [] ∧ ({ busy with halted := true }).halted = true :=
  ⟨by decide, rfl, (by rw [List.length_replicate]; decide), by decide, by decide, by decide, rfl⟩
theorem meets_OneLoadBeforeTheFirstStep :
    (∃ t u, loadImage [] State.reset = .next t ∧ core.run 1 t = .next u) ∧
    State.reset.fresh = true ∧ ∃ u, core.run 1 State.reset = .next u :=
  ⟨⟨_, _, rfl, rfl⟩, by decide, _, rfl⟩
theorem meets_StepKeepsProper : Proper busy ∧ (see (step busy) fun _ => ()) = some () :=
  ⟨⟨by decide, fun _ h => (by cases h), fun _ h => (by cases h)⟩, by decide⟩
theorem meets_DispatcherStates : Proper busy ∧ Proper State.reset ∧
    Proper (prog 32766 [20, 32775]) ∧ step (prog 32766 [20, 32775]) = .fault .inputWait :=
  ⟨⟨by decide, fun _ h => (by cases h), fun _ h => (by cases h)⟩,
   ⟨by decide, fun _ h => (by cases h), fun _ h => (by cases h)⟩,
   ⟨by decide, fun _ h => (by cases h), fun _ h => (by cases h)⟩, rfl⟩

end Sys2Proof.Tests
end

/-! The state: what an instruction does to the register file, the step outside memory, and reset. -/

namespace Sys2Proof.Machine

/-- A register writer writes the register that its destination operand names (10_state.md R24). -/
theorem Writes.dest {s : State} {i : Instr} {d : RegIndex} {v : Word} (h : Writes s i d v) :
    ∃ a, (Role.dest, a) ∈ i.operands ∧ dst a = some d := by
  cases h <;> exact ⟨_, List.mem_cons_self, ‹dst _ = some d›⟩

/-- The register file after an instruction: as it was, or with the one register set that the
destination operand names (10_state.md R24). -/
theorem Effect.reg_cases {s t : State} {i : Instr} (h : Effect s i t) :
    t.reg = s.reg ∨ ∃ a d v, (Role.dest, a) ∈ i.operands ∧ dst a = some d ∧
      t.reg = (s.writeReg d v).reg := by
  cases h with
  | write hw =>
    obtain ⟨a, ha, hd⟩ := hw.dest
    exact .inr ⟨a, _, _, ha, hd, rfl⟩
  | pop hd _ => exact .inr ⟨_, _, _, List.mem_cons_self, hd, rfl⟩
  | receive hd _ => exact .inr ⟨_, _, _, List.mem_cons_self, hd, rfl⟩
  | skip | fatal | jump | pass | halt | push | call | ret | store | emit => exact .inl rfl

/-- The step of a running machine whose pc is above 32767 is the halt guard
(40_dispatch_and_operands.md R111). -/
theorem step_of_pc_outside {s : State} (hrun : s.halted = false) (hpc : 32767 < s.pc.toNat) :
    step s = .next { s with halted := true } := by
  rw [step_running hrun, fetch_outside.mpr hpc]

/-- Every cell holds the fill after reset (10_state.md R43). -/
@[simp] theorem State.reset_mem_read (a : Nat) : State.reset.mem.read a = 21 :=
  Memory.read_nil a

end Sys2Proof.Machine

namespace Sys2Proof

open Machine

/-- Settles O43: the register file changes in the register of the destination operand only, so a
register which that operand does not name is read past the write. -/
theorem registerFrame : Obligations.RegisterFrame := by
  intro i s t r h hnot
  rcases (exec_effect h).reg_cases with hreg | ⟨a, d, v, ha, hd, hreg⟩
  · rw [hreg]
  · have hne : r ≠ d := fun e => hnot a ha (e ▸ hd)
    rw [hreg]
    exact State.readReg_writeReg_of_ne s d r v hne

/-- Settles O27: a `noop` at 32767 leaves a running machine with the pc at 32768, where the step is
the halt guard. -/
theorem noopOnlyAdvances : Obligations.NoopOnlyAdvances := by
  refine ⟨rfl, State.reset_mem_read, fun s => ⟨rfl, ?_⟩⟩
  intro hrun hpc t h
  cases h
  have hnext : (s.advance 1).pc = 32768 := by simp [hpc]
  exact ⟨hnext, step_of_pc_outside hrun (by rw [hnext]; decide)⟩

/-- Settles O52, field by field from `State.reset`; memory lists no cell, so every read is the fill. -/
theorem resetState : Obligations.ResetState :=
  ⟨fun a _ => State.reset_mem_read a, fun i => Vector.getElem_replicate i.isLt,
    rfl, rfl, rfl, rfl, rfl⟩

/-- Settles O55: after reset no cell is listed, the stack is unbounded and no fault is recorded. -/
theorem resetIsProper : Obligations.ResetIsProper :=
  ⟨Memory.wf_nil, nofun, nofun⟩

end Sys2Proof

/-! Memory: where an instruction changes it, and the fetch of the word at the pc. -/

namespace Sys2Proof

/-- No row of the opcode map stands for a word of 22 or more (30_encoding.md R87). -/
theorem lookupOpcode_eq_none {op : Word} (h : 21 < op.toNat) : lookupOpcode op = none := by
  by_contra hne
  obtain ⟨sh, hsh⟩ := Option.ne_none_iff_exists'.mp hne
  have hmem : op.toNat ∈ opcodeMap.map (·.1) := List.mem_map_of_mem (lookupOpcode_mem hsh)
  rw [opcodeMap_opcodes, List.mem_range] at hmem
  omega

end Sys2Proof

namespace Sys2Proof.Machine

/-- Memory after an instruction: as it was, or with the one cell written that the operand a of a
`wmem` addresses (20_memory.md R53). -/
theorem Effect.mem_cases {s t : State} {i : Instr} (h : Effect s i t) :
    t.mem = s.mem ∨ ∃ a b x y, i = .wmem a b ∧ val s a = some x ∧
      t.mem = s.mem.write x.toNat y := by
  cases h with
  | store ha _ _ => exact .inr ⟨_, _, _, _, rfl, ha, rfl⟩
  | skip | fatal | write | jump | pass | halt | push | pop | call | ret | emit | receive =>
    exact .inl rfl

/-- A `wmem` to an existing cell writes that cell and moves the pc (45_memory_access.md R201). -/
theorem exec_wmem_of_inMemory {a b : Operand} {s : State} {x y : Word} (ha : val s a = some x)
    (hb : val s b = some y) (hx : x.toNat < Config.memWords) :
    exec (.wmem a b) s = .next { s with mem := s.mem.write x.toNat y, pc := s.pc + 3 } := by
  have hstore := (State.store_eq_some (s := s) (v := y)).mpr ⟨hx, rfl⟩
  simp only [exec, execWmem, onVV, ha, hb, hstore]
  rfl

/-- The step at an opcode word of no row is the decode fault (40_dispatch_and_operands.md R112). -/
theorem step_of_lookup_none {s : State} (hrun : s.halted = false) (hpc : s.pc.toNat ≤ 32767)
    (hop : lookupOpcode (s.mem.read s.pc.toNat) = none) :
    step s = raise .decodeFault (s.mem.read s.pc.toNat) s := by
  have hfetch : fetch s = .failed .decodeFault (s.mem.read s.pc.toNat) := by
    simp only [fetch, if_neg (Nat.not_lt.mpr hpc), hop]
  rw [step_running hrun, hfetch]
  rfl

/-- The step at an opcode word whose operands lie inside memory runs the instruction of its row
(40_dispatch_and_operands.md R113). -/
theorem step_of_lookup_some {s : State} {sh : Shape} (hrun : s.halted = false)
    (hop : lookupOpcode (s.mem.read s.pc.toNat) = some sh)
    (hend : s.pc.toNat + sh.arity ≤ 32767) :
    step s = exec (sh.build fun k => s.mem.read (s.pc.toNat + k)) s := by
  have hpc : ¬s.pc.toNat > 32767 := by omega
  have hfetch : fetch s = .instr (sh.build fun k => s.mem.read (s.pc.toNat + k)) := by
    simp only [fetch, if_neg hpc, hop, if_neg (Nat.not_lt.mpr hend)]
  rw [step_running hrun, hfetch]

end Sys2Proof.Machine

namespace Sys2Proof

open Machine

/-- Settles O38: the state after the `wmem` is running, its pc is the written address, so the word
its next step fetches is the one a read after the write returns. -/
theorem nextFetchSeesTheStore : Obligations.NextFetchSeesTheStore := by
  intro a b s t x y hrun hwf ha hb hx hnext h
  have hcell : x.toNat < Config.memWords := Nat.lt_succ_of_le hx
  rw [exec_wmem_of_inMemory ha hb hcell, ← hnext] at h
  obtain ⟨hrun', hpc, hread⟩ :
      t.halted = false ∧ t.pc = x ∧ t.mem.read t.pc.toNat = y := by
    cases h
    exact ⟨hrun, rfl, by simp [Memory.read_write hwf]⟩
  subst hpc
  refine ⟨fun hy => ?_, fun hy => ?_, fun hy => ?_⟩
  · have hop : lookupOpcode (t.mem.read t.pc.toNat) = none := hread ▸ lookupOpcode_eq_none hy
    rw [step_of_lookup_none hrun' hx hop, hread, raise_eq]
  · exact step_of_lookup_some (sh := .f0 .halt) hrun' (by rw [hread, hy]; rfl) hx
  · exact step_of_lookup_some (sh := .f0 .noop) hrun' (by rw [hread, hy]; rfl) hx

/-- Settles O44: memory changes in the cell of a `wmem`'s resolved operand a only, so another address
is read past the write. -/
theorem memoryFrame : Obligations.MemoryFrame := by
  intro i s t adr hwf h hnot
  rcases (exec_effect h).mem_cases with hmem | ⟨a, b, x, y, hi, ha, hmem⟩
  · rw [hmem]
  · have hne : adr ≠ x.toNat := fun e => hnot a b x hi ha e.symm
    rw [hmem, Memory.read_write hwf, if_neg hne]

end Sys2Proof

/-! Encoding: what the decoder reads, the rows of the opcode map, and the bits of an operand word. -/

namespace Sys2Proof

/-! The decoder on the words of one instruction, format by format (30_encoding.md R81) -/

/-- An opcode word of the map, with as many words after it as its row has operands, is read as the
instruction built of these words. -/
theorem decode_of_lookup_some {op : Word} {sh : Shape} (hop : lookupOpcode op = some sh)
    {ws : List Word} (hlen : sh.arity ≤ ws.length) :
    decode (op :: ws) = .ok (sh.build fun k => ws.getD (k - 1) 0, ws.drop sh.arity) := by
  simp only [decode, hop, if_neg (Nat.not_lt.mpr hlen)]

theorem decode_f0 {op : Word} {i : Instr} (hop : lookupOpcode op = some (.f0 i))
    (rest : List Word) : decode ([op] ++ rest) = .ok (i, rest) :=
  decode_of_lookup_some hop (Nat.zero_le _)

theorem decode_f1 {op : Word} {mk : Operand → Instr} (hop : lookupOpcode op = some (.f1 mk))
    {a : Operand} (ha : a.wf = true) (rest : List Word) :
    decode ([op, a.word] ++ rest) = .ok (mk a, rest) := by
  rw [List.cons_append, decode_of_lookup_some hop (by simp [Shape.arity])]
  simp [Shape.build, Shape.arity, classify_word ha]

theorem decode_f2 {op : Word} {mk : Operand → Operand → Instr}
    (hop : lookupOpcode op = some (.f2 mk)) {a b : Operand} (h : (a.wf && b.wf) = true)
    (rest : List Word) : decode ([op, a.word, b.word] ++ rest) = .ok (mk a b, rest) := by
  obtain ⟨ha, hb⟩ := Bool.and_eq_true_iff.mp h
  rw [List.cons_append, decode_of_lookup_some hop (by simp [Shape.arity])]
  simp [Shape.build, Shape.arity, classify_word ha, classify_word hb]

theorem decode_f3 {op : Word} {mk : Operand → Operand → Operand → Instr}
    (hop : lookupOpcode op = some (.f3 mk)) {a b c : Operand}
    (h : (a.wf && b.wf && c.wf) = true) (rest : List Word) :
    decode ([op, a.word, b.word, c.word] ++ rest) = .ok (mk a b c, rest) := by
  obtain ⟨hab, hc⟩ := Bool.and_eq_true_iff.mp h
  obtain ⟨ha, hb⟩ := Bool.and_eq_true_iff.mp hab
  rw [List.cons_append, decode_of_lookup_some hop (by simp [Shape.arity])]
  simp [Shape.build, Shape.arity, classify_word ha, classify_word hb, classify_word hc]

/-- Settles O1: each constructor is encoded behind the opcode word of its row, and the decoder reads
the row's format back operand by operand. -/
theorem decodeOfEncode : Obligations.DecodeOfEncode := by
  intro i rest h
  cases i with
  | halt | ret | noop => exact decode_f0 rfl rest
  | push | pop | jmp | call | outp | inp => exact decode_f1 rfl h rest
  | set | jt | jf | not | rmem | wmem => exact decode_f2 rfl h rest
  | eq | gt | add | mult | mod | and | or => exact decode_f3 rfl h rest

/-! The instructions that the rows of the opcode map build -/

/-- Row by row: the instruction built of raw words is well formed, since each of its operands is the
class of a word, and it encodes to the row's opcode followed by the raw words of its operands. -/
theorem opcodeMap_build (raw : Nat → Word) : ∀ row ∈ opcodeMap,
    (row.2.build raw).wf = true ∧
    encode (row.2.build raw) =
      BitVec.ofNat 16 row.1 :: (List.range row.2.arity).map fun k => raw (k + 1) := by
  intro row hrow
  fin_cases hrow <;>
    simp [Shape.build, Shape.arity, Instr.wf, encode, wf_classify, word_classify, List.range_succ]

theorem wf_build {op : Word} {sh : Shape} (hop : lookupOpcode op = some sh) (raw : Nat → Word) :
    (sh.build raw).wf = true :=
  (opcodeMap_build raw _ (lookupOpcode_mem hop)).1

theorem encode_build {op : Word} {sh : Shape} (hop : lookupOpcode op = some sh)
    (raw : Nat → Word) :
    encode (sh.build raw) = op :: (List.range sh.arity).map fun k => raw (k + 1) := by
  have h := (opcodeMap_build raw _ (lookupOpcode_mem hop)).2
  rwa [BitVec.ofNat_toNat, BitVec.setWidth_eq] at h

/-- What the decoder has read when it answers an instruction: an opcode word of the map, the words of
its operands, and the rest behind them (30_encoding.md R80). -/
theorem decode_eq_ok {ws rest : List Word} {i : Instr} (h : decode ws = .ok (i, rest)) :
    ∃ op ops sh, ws = op :: ops ∧ lookupOpcode op = some sh ∧ sh.arity ≤ ops.length ∧
      i = (sh.build fun k => ops.getD (k - 1) 0) ∧ rest = ops.drop sh.arity := by
  cases ws with
  | nil => cases h
  | cons op ops =>
    simp only [decode] at h
    split at h
    · cases h
    · split at h
      · cases h
      · next hlen =>
        cases h
        exact ⟨op, ops, _, rfl, ‹_›, Nat.not_lt.mp hlen, rfl, rfl⟩

/-- The entries at the first `n` places of a list that has as many are its first `n` entries. -/
theorem map_getD_range_eq_take {α : Type} {n : Nat} {l : List α} (d : α) (h : n ≤ l.length) :
    ((List.range n).map fun k => l.getD k d) = l.take n := by
  apply List.ext_getElem
  · simp [h]
  · intro k hk _
    have hlt : k < l.length := by
      rw [List.length_map, List.length_range] at hk
      omega
    simp [hlt]

/-- Settles O2: the instruction read is the one its row builds of the words read, so its encoding is
the opcode word and the operand words, which the rest completes to the whole list. -/
theorem encodeOfDecode : Obligations.EncodeOfDecode := by
  intro ws rest i h
  obtain ⟨op, ops, sh, rfl, hop, hlen, rfl, rfl⟩ := decode_eq_ok h
  refine ⟨wf_build hop _, ?_⟩
  simp only [encode_build hop, Nat.add_sub_cancel, map_getD_range_eq_take _ hlen,
    List.cons_append, List.take_append_drop]

/-! The opcode word -/

/-- Every word up to 21 has a row in the opcode map (30_encoding.md R86). -/
theorem exists_lookupOpcode {op : Word} (h : op.toNat ≤ 21) :
    ∃ sh, lookupOpcode op = some sh := by
  have hmem : op.toNat ∈ opcodeMap.map (·.1) := by
    rw [opcodeMap_opcodes, List.mem_range]
    omega
  obtain ⟨row, hrow, heq⟩ := List.mem_map.mp hmem
  rw [← Option.isSome_iff_exists, lookupOpcode, Option.isSome_map, List.find?_isSome]
  exact ⟨row, hrow, beq_iff_eq.mpr heq⟩

/-- The instruction that is built tells the opcode word: it is the first word of its encoding. -/
theorem opcode_unique_of_build {op op' : Word} {sh sh' : Shape} {raw raw' : Nat → Word}
    (hop : lookupOpcode op = some sh) (hop' : lookupOpcode op' = some sh')
    (h : sh.build raw = sh'.build raw') : op = op' := by
  have henc : encode (sh.build raw) = encode (sh'.build raw') := congrArg encode h
  rw [encode_build hop, encode_build hop'] at henc
  exact (List.cons.inj henc).1

open Machine in
/-- Settles O4: the map's opcodes are 0..21, an instruction tells its opcode word, and without a row
the step raises the decode fault. -/
theorem opcodeIsTheWholeWord : Obligations.OpcodeIsTheWholeWord := by
  refine ⟨fun op => exists_lookupOpcode,
    fun op op' sh sh' raw raw' => opcode_unique_of_build,
    fun op => lookupOpcode_eq_none, fun s hrun hpc hop => ?_⟩
  rw [step_of_lookup_none hrun hpc (lookupOpcode_eq_none hop), raise_eq]
  exact ⟨_, _, rfl, rfl, rfl, rfl⟩

/-! The class of a word by its value: the word of the operand that its range names -/

theorem classify_of_le {w : Word} (h : w.toNat ≤ 32767) : classify w = .lit w :=
  classify_word (a := .lit w) (decide_eq_true h)

theorem classify_of_toNat_eq {w : Word} {i : RegIndex} (h : w.toNat = 32768 + i.val) :
    classify w = .reg i := by
  have hw : w = (Operand.reg i).word := by
    apply BitVec.eq_of_toNat_eq
    simp only [Operand.word, Config.regBase, BitVec.toNat_ofNat]
    omega
  exact hw ▸ classify_word (a := .reg i) rfl

theorem classify_of_ge {w : Word} (h : 32776 ≤ w.toNat) : classify w = .invalid w :=
  classify_word (a := .invalid w) (decide_eq_true h)

/-! The class of a word by its bits, which are quotients and remainders by powers of two -/

theorem toNat_extractLsb' (w : Word) (k n : Nat) :
    (w.extractLsb' k n).toNat = w.toNat / 2 ^ k % 2 ^ n := by
  rw [BitVec.extractLsb'_toNat, Nat.shiftRight_eq_div_pow]

theorem getLsbD_15_eq_false_iff (w : Word) : w.getLsbD 15 = false ↔ w.toNat ≤ 32767 := by
  have hmsb : w.msb = w.getLsbD 15 := BitVec.msb_eq_getLsbD_last w
  rw [← hmsb, BitVec.msb_eq_false_iff_two_mul_lt]
  omega

theorem extractLsb'_3_13_eq_iff (w : Word) :
    w.extractLsb' 3 13 = 0b1000000000000 ↔ 32768 ≤ w.toNat ∧ w.toNat ≤ 32775 := by
  have hpattern : (0b1000000000000 : BitVec 13).toNat = 4096 := rfl
  rw [← BitVec.toNat_inj, toNat_extractLsb', hpattern]
  omega

theorem extractLsb'_3_12_eq_zero_iff (w : Word) :
    w.extractLsb' 3 12 = 0 ↔ w.toNat / 8 % 4096 = 0 := by
  rw [← BitVec.toNat_inj, toNat_extractLsb']
  rfl

/-- Settles O3: the classes by range, then each bit pattern as the range it stands for. -/
theorem operandWordClasses : Obligations.OperandWordClasses := by
  intro w
  have hbit := getLsbD_15_eq_false_iff w
  refine ⟨classify_of_le, fun i => classify_of_toNat_eq, classify_of_ge, hbit.symm,
    (extractLsb'_3_13_eq_iff w).symm, fun h => ?_, ?_⟩
  · rw [toNat_extractLsb']
    omega
  · rw [← Bool.not_eq_false, hbit, ne_eq, extractLsb'_3_12_eq_zero_iff]
    omega

/-- Settles O5: each word sequence is read by the row of its opcode word. -/
theorem sampleWordsDecode : Obligations.SampleWordsDecode :=
  ⟨rfl, rfl, rfl, rfl, rfl, rfl⟩

end Sys2Proof

/-! Dispatch: the fetch phases and the decoder read the same words, and what an operand word resolves
to in each role. -/

namespace Sys2Proof

/-- An instruction is built of the raw words at the places 1 to the arity of its row, and of no other
(00_scope.md R8). -/
theorem Shape.build_congr {raw raw' : Nat → Word} (sh : Shape)
    (h : ∀ k, 1 ≤ k → k ≤ sh.arity → raw k = raw' k) : sh.build raw = sh.build raw' := by
  cases sh with
  | f0 i => rfl
  | f1 mk | f2 mk | f3 mk =>
    simp only [arity] at h
    simp [build, h]

/-- What the decoder reads from `n` consecutive cells is the instruction that the row of the first
cell's word builds of the cells themselves, and its operands lie within the `n` cells
(30_encoding.md R80). -/
theorem decode_cells {n : Nat} {cell : Nat → Word} {i : Instr} {rest : List Word}
    (h : decode ((List.range n).map cell) = .ok (i, rest)) :
    ∃ sh, lookupOpcode (cell 0) = some sh ∧ sh.arity < n ∧ i = sh.build cell := by
  obtain ⟨op, ops, sh, hcells, hop, hlen, hi, -⟩ := decode_eq_ok h
  cases n with
  | zero => cases hcells
  | succ m =>
    rw [List.range_succ_eq_map, List.map_cons, List.map_map] at hcells
    obtain ⟨rfl, rfl⟩ := List.cons.inj hcells
    rw [List.length_map, List.length_range] at hlen
    refine ⟨sh, hop, Nat.lt_succ_of_le hlen, hi.trans (sh.build_congr fun k hpos hk => ?_)⟩
    have hlt : k - 1 < m := by omega
    simp [hlt, Nat.sub_add_cancel hpos]

open Machine

/-- Settles O6: the decoder and the fetch phases build the instruction of the same row from the same
cells, and that the decoded cells lie inside memory is the fetch's own bound on the operands. -/
theorem stepRunsDecodedInstruction : Obligations.StepRunsDecodedInstruction := by
  intro s i n hrun hend h
  obtain ⟨sh, hop, harity, rfl⟩ := decode_cells h
  exact step_of_lookup_some hrun hop (by omega)

/-- Settles O13: in each range the word has one class, and each class its own resolution as a value. -/
theorem valueResolution : Obligations.ValueResolution := by
  intro s w
  refine ⟨fun hlit => ?_, fun i hreg => ?_, fun hinvalid => ?_⟩
  · rw [classify_of_le hlit, val_lit]
  · rw [classify_of_toNat_eq hreg, val_reg, State.readReg]
  · rw [classify_of_ge hinvalid, val_invalid]

/-- Settles O14: in each range the word has one class, and of the classes only a register reference
resolves as a destination. -/
theorem destinationResolution : Obligations.DestinationResolution := by
  intro w
  refine ⟨fun hlit => ?_, fun i hreg => ?_, fun hinvalid => ?_⟩
  · rw [classify_of_le hlit, dst_lit]
  · rw [classify_of_toNat_eq hreg, dst_reg]
  · rw [classify_of_ge hinvalid, dst_invalid]

end Sys2Proof

/-! Move and stack: `push` on a stack with room, `pop` of a stack that holds a word, and the two in
sequence. -/

namespace Sys2Proof.Machine

/-- A stack has room when it is shorter than STACK_CAP, if there is one (10_state.md R31). -/
theorem State.stackFull_eq_false_iff {s : State} :
    s.stackFull = false ↔ ∀ n, s.stackCap = some n → s.stack.length < n := by
  simp only [← Bool.not_eq_true, State.stackFull_iff, not_exists, not_and, Nat.not_le]

/-- A `push` of a value that resolves, on a stack with room (41_move_and_stack.md R141). -/
theorem exec_push_of_room {a : Operand} {s : State} {x : Word} (ha : val s a = some x)
    (hroom : s.stackFull = false) :
    exec (.push a) s = .next { s with stack := s.stack ++ [x], pc := s.pc + 2 } := by
  have hpush := (State.push_eq_some (v := x)).mpr ⟨hroom, rfl⟩
  simp only [exec, execPush, onV, ha, hpush]
  rfl

/-- A `pop` with a destination that resolves, of a stack whose last word is `v`
(41_move_and_stack.md R142). -/
theorem exec_pop_of_append {a : Operand} {s : State} {d : RegIndex} {rest : List Word} {v : Word}
    (hd : dst a = some d) (hs : s.stack = rest ++ [v]) :
    exec (.pop a) s =
      .next { s with reg := s.reg.set d.val v d.isLt, stack := rest, pc := s.pc + 2 } := by
  have hpop := State.pop_eq_some.mpr ⟨rest, hs, rfl⟩
  simp only [exec, execPop, onD, hd, hpop]
  rfl

end Sys2Proof.Machine

namespace Sys2Proof

open Machine

/-- Settles O50: the `push` leaves the stack with the value behind the old words, so the `pop` takes
that value and leaves the old words; the pc has moved by 2 twice. -/
theorem popReturnsWhatPushStored : Obligations.PopReturnsWhatPushStored := by
  intro a b d s x ha hb hroom
  refine ⟨_, exec_push_of_room ha (State.stackFull_eq_false_iff.mpr hroom), ?_⟩
  have hpc : s.pc + 2 + 2 = s.pc + 4 := BitVec.add_assoc _ _ _
  rw [exec_pop_of_append hb rfl, hpc]

end Sys2Proof

/-! Compare: the meaning of a role D V V instruction in its two cases, and the tests of `eq` and `gt`
as propositions. -/

namespace Sys2Proof.Machine

/-- A role D V V instruction whose three operands resolve continues with what they resolve to
(40_dispatch_and_operands.md R121). -/
theorem onDVV_of_resolved {a b c : Operand} {s : State} {d : RegIndex} {x y : Word}
    (k : RegIndex → Word → Word → Result) (ha : dst a = some d) (hb : val s b = some x)
    (hc : val s c = some y) : onDVV a b c s k = k d x y := by
  simp only [onDVV, ha, hb, hc]

/-- A role D V V instruction with an operand that does not resolve is skipped whole
(40_dispatch_and_operands.md R121). -/
theorem onDVV_of_unresolved {a b c : Operand} {s : State} (k : RegIndex → Word → Word → Result)
    (h : dst a = none ∨ val s b = none ∨ val s c = none) : onDVV a b c s k = softSkip 3 s := by
  rcases onDVV_cases a b c s k with ⟨-, hskip⟩ | ⟨d, x, y, ha, hb, hc, -⟩
  · exact hskip
  · simp [ha, hb, hc] at h

/-- `eq` tests equality of the whole words (42_compare.md R150). -/
theorem truthWord_equalWords (x y : Word) :
    truthWord (equalWords x y) = if x = y then 1 else 0 := by
  simp [truthWord, equalWords, BitVec.toNat_inj]

/-- `gt` tests the unsigned order, with its first value on the left (42_compare.md R151). -/
theorem truthWord_greaterWord (x y : Word) :
    truthWord (greaterWord x y) = if x.toNat > y.toNat then 1 else 0 := by
  simp [truthWord, greaterWord]

end Sys2Proof.Machine

namespace Sys2Proof

open Machine

/-- Settles O19: with its operands resolved `eq` ends by writing the truth word of the equality,
otherwise it is the soft skip of width 4. -/
theorem eqWritesOneOrZero : Obligations.EqWritesOneOrZero := by
  refine fun a b c s => ⟨rfl, fun d x y ha hb hc => ?_, onDVV_of_unresolved _⟩
  rw [← truthWord_equalWords]
  exact onDVV_of_resolved _ ha hb hc

/-- Settles O20: with its operands resolved `gt` ends by writing the truth word of the unsigned order,
otherwise it is the soft skip of width 4. -/
theorem gtWritesOneOrZero : Obligations.GtWritesOneOrZero := by
  refine fun a b c s => ⟨rfl, fun d x y ha hb hc => ?_, onDVV_of_unresolved _⟩
  rw [← truthWord_greaterWord]
  exact onDVV_of_resolved _ ha hb hc

end Sys2Proof

/-! ALU: the reduction modulo 32768 as the clearing of bit 15, the register an instruction ends with,
and the meaning of a role D V instruction in its two cases. -/

namespace Sys2Proof.Machine

/-- The reduction keeps the remainder, which is below the modulus and so fits a word (44_alu.md R180). -/
@[simp] theorem toNat_reduce (n : Nat) : (reduce n).toNat = n % 32768 := by
  simp only [reduce, Config.modulus, BitVec.toNat_ofNat]
  omega

/-- The reduction of an exact result clears bit 15 of its low 16 bits (44_alu.md R187). -/
theorem reduce_eq_and (n : Nat) : reduce n = BitVec.ofNat 16 n &&& 0x7FFF := by
  have hmask : (0x7FFF : Word).toNat = 2 ^ 15 - 1 := rfl
  apply BitVec.eq_of_toNat_eq
  rw [toNat_reduce, BitVec.toNat_and, BitVec.toNat_ofNat, hmask, Nat.and_two_pow_sub_one_eq_mod]
  omega

theorem aluAdd_eq_and (x y : Word) : aluAdd x y = (x + y) &&& 0x7FFF := by
  simp [aluAdd, reduce_eq_and, BitVec.ofNat_add]

theorem aluMult_eq_and (x y : Word) : aluMult x y = (x * y) &&& 0x7FFF := by
  simp [aluMult, reduce_eq_and, BitVec.ofNat_mul]

theorem aluAnd_eq_and (x y : Word) : aluAnd x y = x &&& y &&& 0x7FFF := by
  simp [aluAnd, reduce_eq_and, BitVec.ofNat_and]

theorem aluOr_eq_and (x y : Word) : aluOr x y = (x ||| y) &&& 0x7FFF := by
  simp [aluOr, reduce_eq_and, BitVec.ofNat_or]

/-- Twice the complement on 16 bits with 15 bits kept is the reduction (44_alu.md R186). -/
theorem toNat_aluNot_aluNot (x : Word) : (aluNot (aluNot x)).toNat = x.toNat % 32768 := by
  have hx := x.isLt
  simp only [aluNot, toNat_reduce]
  omega

/-- The destination register after an instruction that ends by writing it. -/
theorem reg_of_finishReg {s t : State} {d : RegIndex} {v : Word} {w : Nat}
    (h : finishReg s d v w = .next t) : t.reg[d] = v := by
  cases h
  exact State.readReg_writeReg_same s d v

/-- A destination that resolves is a register reference, whose value is that register's content
(40_dispatch_and_operands.md R118, R119). -/
theorem val_of_dst {a : Operand} {d : RegIndex} (h : dst a = some d) (s : State) :
    val s a = some s.reg[d] := by
  cases a with
  | reg i => cases h; rfl
  | lit | invalid => cases h

/-- A role D V instruction whose two operands resolve continues with what they resolve to
(40_dispatch_and_operands.md R121). -/
theorem onDV_of_resolved {a b : Operand} {s : State} {d : RegIndex} {x : Word}
    (k : RegIndex → Word → Result) (ha : dst a = some d) (hb : val s b = some x) :
    onDV a b s k = k d x := by
  simp only [onDV, ha, hb]

/-- A role D V instruction with an operand that does not resolve is skipped whole
(40_dispatch_and_operands.md R121). -/
theorem onDV_of_unresolved {a b : Operand} {s : State} (k : RegIndex → Word → Result)
    (h : dst a = none ∨ val s b = none) : onDV a b s k = softSkip 2 s := by
  rcases onDV_cases a b s k with ⟨-, hskip⟩ | ⟨d, x, ha, hb, -⟩
  · exact hskip
  · simp [ha, hb] at h

/-- A `not` whose operands resolve ends by writing the complement (44_alu.md R186). -/
theorem exec_not_of_resolved {a b : Operand} {s : State} {d : RegIndex} {x : Word}
    (ha : dst a = some d) (hb : val s b = some x) :
    exec (.not a b) s = finishReg s d (aluNot x) 3 :=
  onDV_of_resolved _ ha hb

end Sys2Proof.Machine

namespace Sys2Proof

open Machine

/-- Settles O34: each of the five instructions ends by writing a reduced result, which is a remainder
modulo 32768. -/
theorem reducedResultsFit15Bits : Obligations.ReducedResultsFit15Bits := by
  intro a b c s t d x y ha hb hc h
  have hreduced : ∃ n w, finishReg s d (reduce n) w = .next t := by
    rcases h with hadd | hmult | hand | hor | hnot
    · exact ⟨_, _, (onDVV_of_resolved _ ha hb hc).symm.trans hadd⟩
    · exact ⟨_, _, (onDVV_of_resolved _ ha hb hc).symm.trans hmult⟩
    · exact ⟨_, _, (onDVV_of_resolved _ ha hb hc).symm.trans hand⟩
    · exact ⟨_, _, (onDVV_of_resolved _ ha hb hc).symm.trans hor⟩
    · exact ⟨_, _, (exec_not_of_resolved ha hb).symm.trans hnot⟩
  obtain ⟨n, w, hend⟩ := hreduced
  rw [reg_of_finishReg hend, toNat_reduce]
  omega

/-- Settles O35: `add` and `mult` end by writing the reduced exact result, and the reduction sees the
low 16 bits only, which are the wrapping sum and product. -/
theorem narrowAccumulatorsSuffice : Obligations.NarrowAccumulatorsSuffice := by
  intro a b c s d x y ha hb hc
  constructor
  · exact ⟨_, onDVV_of_resolved _ ha hb hc, (reg_of_finishReg rfl).trans (aluAdd_eq_and x y)⟩
  · exact ⟨_, onDVV_of_resolved _ ha hb hc, (reg_of_finishReg rfl).trans (aluMult_eq_and x y)⟩

/-- Settles O28: with its operands resolved `add` ends by writing the reduced sum, otherwise it is the
soft skip of width 4. -/
theorem addModulo32768 : Obligations.AddModulo32768 :=
  fun _ _ _ _ => ⟨rfl, fun _ _ _ ha hb hc => onDVV_of_resolved _ ha hb hc, onDVV_of_unresolved _⟩

/-- Settles O29: with its operands resolved `mult` ends by writing the reduced product, otherwise it is
the soft skip of width 4. -/
theorem multModulo32768 : Obligations.MultModulo32768 :=
  fun _ _ _ _ => ⟨rfl, fun _ _ _ ha hb hc => onDVV_of_resolved _ ha hb hc, onDVV_of_unresolved _⟩

/-- Settles O31: with its operands resolved `and` ends by writing the bitwise and without bit 15,
otherwise it is the soft skip of width 4. -/
theorem andModulo32768 : Obligations.AndModulo32768 := by
  refine fun a b c s => ⟨rfl, fun d x y ha hb hc => ?_, onDVV_of_unresolved _⟩
  rw [← aluAnd_eq_and]
  exact onDVV_of_resolved _ ha hb hc

/-- Settles O32: with its operands resolved `or` ends by writing the bitwise or without bit 15,
otherwise it is the soft skip of width 4. -/
theorem orModulo32768 : Obligations.OrModulo32768 := by
  refine fun a b c s => ⟨rfl, fun d x y ha hb hc => ?_, onDVV_of_unresolved _⟩
  rw [← aluOr_eq_and]
  exact onDVV_of_resolved _ ha hb hc

/-- Settles O33: with its operands resolved `not` ends by writing the complement, and a second `not`
complements what the register then holds; otherwise it is the soft skip of width 3. -/
theorem notComplements15Bits : Obligations.NotComplements15Bits := by
  refine fun a b s => ⟨rfl, fun d x ha hb => ⟨exec_not_of_resolved ha hb, fun t u ht hu => ?_⟩,
    onDV_of_unresolved _⟩
  rw [exec_not_of_resolved ha hb] at ht
  rw [exec_not_of_resolved ha (val_of_dst ha t), reg_of_finishReg ht] at hu
  rw [reg_of_finishReg hu, toNat_aluNot_aluNot]

end Sys2Proof

/-! The effects as answers: the resolved and the unresolved case of each list of roles, and the
converse of `exec_effect`, so that an effect says what an instruction answers. -/

namespace Sys2Proof.Machine

theorem onV_of_resolved {a : Operand} {s : State} {x : Word} (k : Word → Result)
    (ha : val s a = some x) : onV a s k = k x := by
  simp only [onV, ha]

theorem onV_of_unresolved {a : Operand} {s : State} (k : Word → Result) (h : val s a = none) :
    onV a s k = softSkip 1 s := by
  simp only [onV, h]

theorem onD_of_resolved {a : Operand} {s : State} {d : RegIndex} (k : RegIndex → Result)
    (ha : dst a = some d) : onD a s k = k d := by
  simp only [onD, ha]

theorem onD_of_unresolved {a : Operand} {s : State} (k : RegIndex → Result) (h : dst a = none) :
    onD a s k = softSkip 1 s := by
  simp only [onD, h]

theorem onVV_of_resolved {a b : Operand} {s : State} {x y : Word} (k : Word → Word → Result)
    (ha : val s a = some x) (hb : val s b = some y) : onVV a b s k = k x y := by
  simp only [onVV, ha, hb]

theorem onVV_of_unresolved {a b : Operand} {s : State} (k : Word → Word → Result)
    (h : val s a = none ∨ val s b = none) : onVV a b s k = softSkip 2 s := by
  rcases onVV_cases a b s k with ⟨-, hskip⟩ | ⟨x, y, ha, hb, -⟩
  · exact hskip
  · simp [ha, hb] at h

/-- An instruction with an operand that does not resolve in its role is the soft skip of its width
(40_dispatch_and_operands.md R121). -/
theorem exec_of_unresolved {i : Instr} {s : State}
    (h : (∃ a, (Role.value, a) ∈ i.operands ∧ val s a = none) ∨
      (∃ a, (Role.dest, a) ∈ i.operands ∧ dst a = none)) :
    exec i s = softSkip i.operands.length s := by
  cases i with
  | halt | ret | noop => simp [Instr.operands] at h
  | push | jmp | call | outp => exact onV_of_unresolved _ (by simpa [Instr.operands] using h)
  | pop | inp => exact onD_of_unresolved _ (by simpa [Instr.operands] using h)
  | jt | jf | wmem => exact onVV_of_unresolved _ (by simpa [Instr.operands] using h)
  | set | not | rmem => exact onDV_of_unresolved _ (by simpa [Instr.operands] using h.symm)
  | eq | gt | add | mult | mod | and | or =>
    exact onDVV_of_unresolved _ (by simpa [Instr.operands] using h.symm)

/-- An instruction that is not resolvable has an operand that does not resolve in its role. -/
theorem exists_unresolved {i : Instr} (s : State) (h : i.resolvable = false) :
    (∃ a, (Role.value, a) ∈ i.operands ∧ val s a = none) ∨
      (∃ a, (Role.dest, a) ∈ i.operands ∧ dst a = none) := by
  obtain ⟨⟨role, a⟩, hmem, hfits⟩ := List.all_eq_false.mp h
  have hfits : a.fits role = false := Bool.not_eq_true _ ▸ hfits
  cases role with
  | value => exact .inl ⟨a, hmem, (Operand.fits_value_iff s a).mp hfits⟩
  | dest => exact .inr ⟨a, hmem, (Operand.fits_dest_iff a).mp hfits⟩

/-- A fatal fault is what the instruction answers (60_exceptions.md R236). -/
theorem Raises.exec_eq {s : State} {i : Instr} {c : Cause} {op : Word} (h : Raises s i c op) :
    exec i s = raise c op s := by
  cases h with
  | push ha hfull =>
    simp only [exec, execPush, onV_of_resolved _ ha, State.push_eq_none.mpr hfull]
  | call ha hfull =>
    simp only [exec, execCall, onV_of_resolved _ ha, State.push_eq_none.mpr hfull]
  | pop ha hempty =>
    simp only [exec, execPop, onD_of_resolved _ ha, State.pop_eq_none.mpr hempty]
  | ret hempty => simp only [exec, execRet, State.pop_eq_none.mpr hempty]
  | mod ha hb hc hzero =>
    simp only [exec, execMod, onDVV_of_resolved _ ha hb hc, aluMod, if_pos hzero]
  | rmem ha hb hx =>
    simp only [exec, execRmem, onDV_of_resolved _ ha hb, State.load_eq_none.mpr hx]
  | wmem ha hb hx =>
    simp only [exec, execWmem, onVV_of_resolved _ ha hb, State.store_eq_none.mpr hx]

/-- A register writer answers the write, with the pc past its width. -/
theorem Writes.exec_eq {s : State} {i : Instr} {d : RegIndex} {v : Word} (h : Writes s i d v) :
    exec i s = finishReg s d v i.width := by
  cases h with
  | set ha hb | not ha hb => exact onDV_of_resolved _ ha hb
  | eq ha hb hc | gt ha hb hc | add ha hb hc | mult ha hb hc | and ha hb hc | or ha hb hc =>
    exact onDVV_of_resolved _ ha hb hc
  | mod ha hb hc hnz =>
    simp only [exec, execMod, onDVV_of_resolved _ ha hb hc, aluMod, if_neg hnz]
    rfl
  | rmem ha hb hx =>
    simp only [exec, execRmem, onDV_of_resolved _ ha hb, State.load_eq_some.mpr ⟨hx, rfl⟩]
    rfl

/-- A taken jump answers the state with the pc at the target. -/
theorem Jumps.exec_eq {s : State} {i : Instr} {target : Word} (h : Jumps s i target) :
    exec i s = .next (s.jump target) := by
  cases h with
  | jmp ha => exact onV_of_resolved _ ha
  | jt ha hb hx => simp only [exec, execJt, onVV_of_resolved _ ha hb, hx, if_true]
  | jf ha hb hx =>
    simp only [exec, execJf, onVV_of_resolved _ ha hb, hx, Bool.false_eq_true, if_false]

/-- An instruction that passes answers the state with the pc past its width. -/
theorem Passes.exec_eq {s : State} {i : Instr} (h : Passes s i) :
    exec i s = .next (s.advance i.width) := by
  cases h with
  | noop => rfl
  | jt ha hb hx =>
    simp only [exec, execJt, onVV_of_resolved _ ha hb, hx, Bool.false_eq_true, if_false]
    rfl
  | jf ha hb hx =>
    simp only [exec, execJf, onVV_of_resolved _ ha hb, hx, if_true]
    rfl

/-- The converse of `exec_effect`: an effect is what the instruction answers. -/
theorem Effect.exec_eq {s t : State} {i : Instr} (h : Effect s i t) : exec i s = .next t := by
  cases h with
  | skip hres => exact exec_of_unresolved (exists_unresolved s hres)
  | fatal hr => exact hr.exec_eq
  | write hw => exact hw.exec_eq
  | jump hj => exact hj.exec_eq
  | pass hp => exact hp.exec_eq
  | halt => rfl
  | push ha hroom => exact exec_push_of_room ha hroom
  | pop hd hs => exact exec_pop_of_append hd hs
  | call ha hroom =>
    simp only [exec, execCall, onV_of_resolved _ ha, State.push_eq_some.mpr ⟨hroom, rfl⟩]
    rfl
  | ret hs =>
    simp only [exec, execRet, State.pop_eq_some.mpr ⟨_, hs, rfl⟩]
    rfl
  | store ha hb hx => exact exec_wmem_of_inMemory ha hb hx
  | emit ha => exact onV_of_resolved _ ha
  | receive hd hin =>
    simp only [exec, execInp, onD_of_resolved _ hd, State.receive_eq_some.mpr ⟨_, hin, rfl⟩]
    rfl

/-- An `in` without an input word answers no next state (46_io.md R215). -/
theorem exec_inp_of_nil {a : Operand} {s : State} {d : RegIndex} (hd : dst a = some d)
    (hin : s.input = []) : exec (.inp a) s = .fault .inputWait := by
  simp only [exec, execInp, onD_of_resolved _ hd, State.receive_eq_none.mpr hin]

end Sys2Proof.Machine

/-! The step by its phases: what a fetched instruction is, how a step ends, and the parts of the state
that an instruction can change. -/

namespace Sys2Proof.Machine

/-! The fetched instruction stands at the pc -/

/-- The words of a fetched instruction stand at the pc, all inside memory
(40_dispatch_and_operands.md R113). -/
theorem encode_of_fetch {s : State} {i : Instr} (h : fetch s = .instr i) :
    s.pc.toNat + (encode i).length ≤ 32768 ∧
    encode i = (List.range (encode i).length).map fun k => s.mem.read (s.pc.toNat + k) := by
  obtain ⟨-, sh, hop, hend, rfl⟩ := fetch_instr h
  rw [encode_build hop, List.length_cons, List.length_map, List.length_range]
  refine ⟨by omega, ?_⟩
  rw [List.range_succ_eq_map, List.map_cons, List.map_map]
  rfl

/-- The opcode word of a fetched instruction is the word at the pc. -/
theorem opcode_of_fetch {s : State} {i : Instr} {op : Word} {ops : List Word}
    (h : fetch s = .instr i) (hop : encode i = op :: ops) :
    s.pc.toNat ≤ 32767 ∧ op = s.mem.read s.pc.toNat := by
  obtain ⟨hend, hwords⟩ := encode_of_fetch h
  rw [hop, List.length_cons] at hend hwords
  rw [List.range_succ_eq_map, List.map_cons] at hwords
  exact ⟨by omega, (List.cons.inj hwords).1⟩

theorem dst_eq_some {a : Operand} {d : RegIndex} : dst a = some d ↔ a = .reg d := by
  cases a <;> simp

/-- A fetched `in` with a register destination: its two words, both inside memory. -/
theorem words_of_fetch_inp {s : State} {a : Operand} {d : RegIndex}
    (h : fetch s = .instr (.inp a)) (hd : dst a = some d) :
    s.pc.toNat < 32767 ∧ s.mem.read s.pc.toNat = 20 ∧
      (s.mem.read (s.pc.toNat + 1)).toNat = 32768 + d.val := by
  cases dst_eq_some.mp hd
  obtain ⟨hend, hwords⟩ := encode_of_fetch h
  have hword : (Operand.reg d).word.toNat = 32768 + d.val := by
    simp only [Operand.word, Config.regBase, BitVec.toNat_ofNat]
    omega
  simp only [encode, List.length_cons, List.length_nil, List.range_succ, List.range_zero,
    List.nil_append, List.cons_append, List.map_cons, List.map_nil, List.cons.injEq, and_true,
    Nat.add_zero] at hend hwords
  obtain ⟨hop, hreg⟩ := hwords
  exact ⟨by omega, hop.symm, hreg ▸ hword⟩

/-! How a step ends -/

theorem step_of_halted {s : State} (h : s.halted = true) : step s = .fault .halted := by
  simp only [step, h, if_true]

theorem step_of_fetch_failed {s : State} {c : Cause} {op : Word} (hrun : s.halted = false)
    (h : fetch s = .failed c op) : step s = raise c op s := by
  rw [step_running hrun, h, raise_eq]

theorem step_of_fetch_instr {s : State} {i : Instr} (hrun : s.halted = false)
    (h : fetch s = .instr i) : step s = exec i s := by
  rw [step_running hrun, h]

/-- What a step that answers a next state has done: the halt guard, a fatal fault of the fetch
phases, or an effect of the fetched instruction (40_dispatch_and_operands.md R126). -/
theorem step_next {s t : State} (h : step s = .next t) :
    s.halted = false ∧
    ((32767 < s.pc.toNat ∧ t = { s with halted := true }) ∨
      (∃ c op, fetch s = .failed c op ∧
        t = { s with halted := true, fault := some ⟨c, s.pc, op⟩ }) ∨
      ∃ i, fetch s = .instr i ∧ Effect s i t) := by
  cases hhalt : s.halted with
  | true => rw [step_of_halted hhalt] at h; cases h
  | false =>
    refine ⟨rfl, ?_⟩
    cases hf : fetch s with
    | outside =>
      have hpc := fetch_outside.mp hf
      rw [step_of_pc_outside hhalt hpc] at h
      cases h
      exact .inl ⟨hpc, rfl⟩
    | failed c op =>
      rw [step_of_fetch_failed hhalt hf] at h
      cases h
      exact .inr (.inl ⟨c, op, rfl, rfl⟩)
    | instr i =>
      rw [step_of_fetch_instr hhalt hf] at h
      exact .inr (.inr ⟨i, rfl, exec_effect h⟩)

/-- A step that answers no next state is that of a halted machine, or an `in` with a register
destination that finds no input word (40_dispatch_and_operands.md R126); nothing is refused. -/
theorem step_outcome (s : State) :
    (∃ t, step s = .next t) ∨ (step s = .fault .halted ∧ s.halted = true) ∨
      (step s = .fault .inputWait ∧ s.halted = false ∧ s.input = [] ∧
        ∃ a d, fetch s = .instr (.inp a) ∧ dst a = some d) := by
  cases hhalt : s.halted with
  | true => exact .inr (.inl ⟨step_of_halted hhalt, rfl⟩)
  | false =>
    cases hf : fetch s with
    | outside => exact .inl ⟨_, step_of_pc_outside hhalt (fetch_outside.mp hf)⟩
    | failed c op => exact .inl ⟨_, step_of_fetch_failed hhalt hf⟩
    | instr i =>
      rw [step_of_fetch_instr hhalt hf]
      rcases exec_outcome i s with ⟨t, ht, -⟩ | ⟨hwait, hin, a, d, rfl, hd⟩
      · exact .inl ⟨t, ht⟩
      · exact .inr (.inr ⟨hwait, rfl, hin, a, d, rfl, hd⟩)

/-- A step that waits is that of a running machine, at an `in` with a register destination and
without an input word. -/
theorem step_inputWait {s : State} (h : step s = .fault .inputWait) :
    s.halted = false ∧ s.input = [] ∧ ∃ a d, fetch s = .instr (.inp a) ∧ dst a = some d := by
  rcases step_outcome s with ⟨t, e⟩ | ⟨e, -⟩ | ⟨-, hwait⟩
  · rw [e] at h; cases h
  · rw [e] at h; cases h
  · exact hwait

/-! What an instruction can change -/

/-- `halted` and the fault record after an instruction: as they were, or `halted` set by `halt`, or
both set by a fatal fault (60_exceptions.md R236). -/
theorem Effect.status_cases {s t : State} {i : Instr} (h : Effect s i t) :
    (t.fault = s.fault ∧ t.halted = s.halted) ∨
    (i = .halt ∧ t = { s with halted := true, pc := s.pc + 1 }) ∨
    ∃ c op, Raises s i c op ∧ t = { s with halted := true, fault := some ⟨c, s.pc, op⟩ } := by
  cases h with
  | halt => exact .inr (.inl ⟨rfl, rfl⟩)
  | fatal hr => exact .inr (.inr ⟨_, _, hr, rfl⟩)
  | skip | write | jump | pass | push | pop | call | ret | store | emit | receive =>
    exact .inl ⟨rfl, rfl⟩

/-- The stack after an instruction: as it was, or one word longer where there was room, by a `push`
or a `call`, or without its top, by a `pop` or a `ret` (10_state.md R33). -/
theorem Effect.stack_cases {s t : State} {i : Instr} (h : Effect s i t) :
    t.stack = s.stack ∨
    (∃ a w, (i = .push a ∧ val s a = some w ∨ i = .call a ∧ w = s.pc + 2) ∧
      s.stackFull = false ∧ t.stack = s.stack ++ [w]) ∨
    (((∃ a, i = .pop a) ∨ i = .ret) ∧ ∃ v, s.stack = t.stack ++ [v]) := by
  cases h with
  | push ha hroom => exact .inr (.inl ⟨_, _, .inl ⟨rfl, ha⟩, hroom, rfl⟩)
  | call _ hroom => exact .inr (.inl ⟨_, _, .inr ⟨rfl, rfl⟩, hroom, rfl⟩)
  | pop _ hs => exact .inr (.inr ⟨.inl ⟨_, rfl⟩, _, hs⟩)
  | ret hs => exact .inr (.inr ⟨.inr rfl, _, hs⟩)
  | skip | fatal | write | jump | pass | halt | store | emit | receive => exact .inl rfl

/-- The output trace after an instruction: as it was, or longer by the value of an `out`
(46_io.md R211). -/
theorem Effect.output_cases {s t : State} {i : Instr} (h : Effect s i t) :
    t.output = s.output ∨ ∃ a w, i = .outp a ∧ val s a = some w ∧ t.output = s.output ++ [w] := by
  cases h with
  | emit ha => exact .inr ⟨_, _, rfl, ha, rfl⟩
  | skip | fatal | write | jump | pass | halt | push | pop | call | ret | store | receive =>
    exact .inl rfl

/-- The input after an instruction: as it was, or without its first word, taken by an `in`
(46_io.md R214). -/
theorem Effect.input_cases {s t : State} {i : Instr} (h : Effect s i t) :
    (t.input = s.input ∧ t.consumed = s.consumed) ∨
      ∃ a w, i = .inp a ∧ s.input = w :: t.input ∧ t.consumed = s.consumed + 1 := by
  cases h with
  | receive _ hin => exact .inr ⟨_, _, rfl, hin, rfl⟩
  | skip | fatal | write | jump | pass | halt | push | pop | call | ret | store | emit =>
    exact .inl ⟨rfl, rfl⟩

/-- No instruction changes STACK_CAP or the record of the load (log 5, 10). -/
theorem Effect.stackCap_loaded_eq {s t : State} {i : Instr} (h : Effect s i t) :
    t.stackCap = s.stackCap ∧ t.loaded = s.loaded := by
  cases h <;> exact ⟨rfl, rfl⟩

/-- Memory stays in canonical form: the one instruction that writes it writes an existing cell
(20_memory.md R57). -/
theorem Effect.mem_wf {s t : State} {i : Instr} (h : Effect s i t) (hwf : s.mem.wf) :
    t.mem.wf := by
  cases h with
  | store _ _ hx => exact Memory.wf_write _ hwf hx
  | skip | fatal | write | jump | pass | halt | push | pop | call | ret | emit | receive =>
    exact hwf

/-- A stack within STACK_CAP stays within it: a word is appended only where there is room
(10_state.md R31). -/
theorem Effect.stack_le {s t : State} {i : Instr} (h : Effect s i t) {n : Nat}
    (hcap : s.stackCap = some n) (hle : s.stack.length ≤ n) : t.stack.length ≤ n := by
  rcases h.stack_cases with hsame | ⟨a, w, -, hroom, hstack⟩ | ⟨-, v, hstack⟩
  · rwa [hsame]
  · have hlt := State.stackFull_eq_false_iff.mp hroom n hcap
    rw [hstack, List.length_append, List.length_singleton]
    omega
  · rw [hstack, List.length_append] at hle
    omega

/-- The opcode word a fatal fault records is that of its instruction (60_exceptions.md R236). -/
theorem Raises.opcode {s : State} {i : Instr} {c : Cause} {op : Word} (h : Raises s i c op) :
    encode i = op :: (encode i).tail := by
  cases h <;> rfl

/-- No fatal fault of an instruction records the opcode word of `halt`. -/
theorem Raises.opcode_ne_zero {s : State} {i : Instr} {c : Cause} {op : Word}
    (h : Raises s i c op) : op ≠ 0 := by
  cases h <;> decide

/-- The fatal faults and the instructions that take them (60_exceptions.md R231). -/
theorem Raises.cause_cases {s : State} {i : Instr} {c : Cause} {op : Word} (h : Raises s i c op) :
    c = .stackEmpty ∧ ((∃ a, i = .pop a) ∨ i = .ret) ∨
    c = .divideByZero ∧ (∃ a b d, i = .mod a b d) ∨
    c = .addressOutOfRange ∧ ((∃ a b, i = .rmem a b) ∨ ∃ a b, i = .wmem a b) ∨
    c = .stackOverflow ∧ ((∃ a, i = .push a) ∨ ∃ a, i = .call a) := by
  cases h <;> simp

end Sys2Proof.Machine

/-! Proper states, the ends of a run, and the frames over all instructions. -/

namespace Sys2Proof

open Machine

/-- A fault of the fetch phases never stands at the word of `halt`: it has a row in the opcode map and
no operand word that could lie beyond memory. -/
theorem opcode_ne_zero_of_fetch_failed {s : State} {c : Cause} {op : Word}
    (h : fetch s = .failed c op) : op ≠ 0 := by
  rintro rfl
  obtain ⟨hpc, -, ⟨-, hnone⟩ | ⟨-, sh, hsome, hend⟩⟩ := fetch_failed h
  · cases hnone
  · cases hsome
    simp only [Shape.arity] at hend
    omega

/-- The record of a fatal fault of the fetch phases fits the state it is set in. -/
theorem faultRecordFits_of_fetch_failed {s : State} {c : Cause} {op : Word}
    (h : fetch s = .failed c op) :
    FaultRecordFits ⟨c, s.pc, op⟩ { s with halted := true, fault := some ⟨c, s.pc, op⟩ } := by
  obtain ⟨hpc, hop, ⟨rfl, hnone⟩ | ⟨rfl, hrow⟩⟩ := fetch_failed h
  · have hillegal : 21 < op.toNat := by
      by_contra hle
      obtain ⟨sh, hsome⟩ := exists_lookupOpcode (Nat.not_lt.mp hle)
      rw [hnone] at hsome
      cases hsome
    exact ⟨rfl, rfl, hpc, hop, hillegal⟩
  · exact ⟨rfl, rfl, hpc, hop, hrow⟩

/-- The record of a fatal fault of the fetched instruction fits the state it is set in; a full stack
that is within STACK_CAP holds exactly STACK_CAP words. -/
theorem faultRecordFits_of_raises {s : State} {i : Instr} {c : Cause} {op : Word}
    (hfetch : fetch s = .instr i) (h : Raises s i c op)
    (hcap : ∀ n, s.stackCap = some n → s.stack.length ≤ n) :
    FaultRecordFits ⟨c, s.pc, op⟩ { s with halted := true, fault := some ⟨c, s.pc, op⟩ } := by
  obtain ⟨hpc, hop⟩ := opcode_of_fetch hfetch h.opcode
  have hfull (h : s.stackFull = true) : s.stackCap = some s.stack.length := by
    obtain ⟨n, hn, hle⟩ := State.stackFull_iff.mp h
    rw [hn, Nat.le_antisymm (hcap n hn) hle]
  refine ⟨rfl, rfl, hpc, hop, ?_⟩
  cases h with
  | push _ h => exact ⟨.inl rfl, hfull h⟩
  | call _ h => exact ⟨.inr rfl, hfull h⟩
  | pop _ h => exact ⟨.inl rfl, h⟩
  | ret h => exact ⟨.inr rfl, h⟩
  | mod => exact rfl
  | rmem => exact .inl rfl
  | wmem => exact .inr rfl

/-- A running machine in a proper state has no fault record (10_state.md R37). -/
theorem Proper.fault_eq_none {s : State} (h : Proper s) (hrun : s.halted = false) :
    s.fault = none := by
  obtain ⟨-, -, hfits⟩ := h
  cases hf : s.fault with
  | none => rfl
  | some r =>
    obtain ⟨hhalt, -⟩ := hfits r hf
    rw [hrun] at hhalt
    cases hhalt

/-- Settles O56: the halt guard and a fault of the fetch phases leave memory and stack alone, an
instruction keeps both within their forms, and a record that was not there before fits. -/
theorem stepKeepsProper : Obligations.StepKeepsProper := by
  intro s t hproper h
  obtain ⟨hrun, hstep⟩ := step_next h
  have hnone := hproper.fault_eq_none hrun
  obtain ⟨hwf, hcap, -⟩ := hproper
  rcases hstep with ⟨-, rfl⟩ | ⟨c, op, hfetch, rfl⟩ | ⟨i, hfetch, heff⟩
  · refine ⟨hwf, hcap, fun r hr => ?_⟩
    rw [hnone] at hr
    cases hr
  · refine ⟨hwf, hcap, fun r hr => ?_⟩
    cases hr
    exact faultRecordFits_of_fetch_failed hfetch
  · obtain ⟨hsameCap, -⟩ := heff.stackCap_loaded_eq
    have hle (n : Nat) (hn : t.stackCap = some n) : t.stack.length ≤ n := by
      rw [hsameCap] at hn
      exact heff.stack_le hn (hcap n hn)
    refine ⟨heff.mem_wf hwf, hle, fun r hr => ?_⟩
    rcases heff.status_cases with ⟨hsame, -⟩ | ⟨-, rfl⟩ | ⟨c, op, hraises, rfl⟩
    · rw [hsame, hnone] at hr
      cases hr
    · rw [hnone] at hr
      cases hr
    · cases hr
      exact faultRecordFits_of_raises hfetch hraises hcap

/-- Settles O11: of the outcomes of a step none is a refusal, and a next state that still runs comes
from neither the halt guard nor a fault, so the record is as before. -/
theorem stepOutcomes : Obligations.StepOutcomes := by
  refine ⟨fun s r h => ?_, fun s hrun hnone => ?_⟩
  · rcases step_outcome s with ⟨t, e⟩ | ⟨e, -⟩ | ⟨e, -⟩ <;> cases e.symm.trans h
  · rcases step_outcome s with ⟨t, h⟩ | ⟨-, hhalt⟩ | ⟨h, -, hin, a, d, hfetch, hd⟩
    · refine .inl ⟨t, h, fun hrun' => ?_⟩
      obtain ⟨-, ⟨-, rfl⟩ | ⟨c, op, -, rfl⟩ | ⟨i, -, heff⟩⟩ := step_next h
      · cases hrun'
      · cases hrun'
      · rcases heff.status_cases with ⟨hsame, -⟩ | ⟨-, rfl⟩ | ⟨c, op, -, rfl⟩
        · rw [hsame, hnone]
        · cases hrun'
        · cases hrun'
    · rw [hrun] at hhalt
      cases hhalt
    · obtain ⟨hpc, hop, hreg⟩ := words_of_fetch_inp hfetch hd
      exact .inr ⟨h, hpc, hop, hin, d, hreg⟩

/-- Settles O12: a step that sets `halted` is the halt guard, a `halt`, or a fatal fault, and no fatal
fault records the opcode word of `halt`. -/
theorem threeWaysToEndARun : Obligations.ThreeWaysToEndARun := by
  intro s t h hhalt
  obtain ⟨hrun, hguard | ⟨c, op, hfetch, rfl⟩ | ⟨i, hfetch, heff⟩⟩ := step_next h
  · exact .inl hguard
  · obtain ⟨hpc, rfl, -⟩ := fetch_failed hfetch
    exact .inr (.inr ⟨hpc, opcode_ne_zero_of_fetch_failed hfetch, c, rfl⟩)
  · rcases heff.status_cases with ⟨-, hsame⟩ | ⟨rfl, rfl⟩ | ⟨c, op, hraises, rfl⟩
    · rw [hsame, hrun] at hhalt
      cases hhalt
    · obtain ⟨hpc, hop⟩ := opcode_of_fetch hfetch rfl
      exact .inr (.inl ⟨hpc, hop.symm, rfl⟩)
    · obtain ⟨hpc, rfl⟩ := opcode_of_fetch hfetch hraises.opcode
      exact .inr (.inr ⟨hpc, hraises.opcode_ne_zero, c, rfl⟩)

/-- Settles O57: in a proper state a record stands only where `halted` is set, and a halted machine
does not wait. -/
theorem dispatcherStates : Obligations.DispatcherStates := by
  intro s hproper
  cases hhalt : s.halted with
  | false => simp [State.dispatcher, hhalt, hproper.fault_eq_none hhalt]
  | true =>
    cases hfault : s.fault <;> simp [State.dispatcher, hhalt, hfault, step_of_halted hhalt]

/-- Settles O15: the soft skip is what every list of roles answers when an operand fails. -/
theorem softSkipHasNoEffect : Obligations.SoftSkipHasNoEffect :=
  fun _ _ h => exec_of_unresolved h

/-- Settles O45: the parts of an effect, one by one. -/
theorem stackAndStreamFrame : Obligations.StackAndStreamFrame := by
  intro i s t h
  have heff := exec_effect h
  obtain ⟨hcap, hloaded⟩ := heff.stackCap_loaded_eq
  refine ⟨hcap, hloaded, ?_, heff.output_cases, heff.input_cases⟩
  rcases heff.stack_cases with hsame | ⟨a, w, hi, -, hstack⟩ | hpop
  · exact .inl hsame
  · exact .inr (.inl ⟨a, w, hi, hstack⟩)
  · exact .inr (.inr hpop)

/-- Settles O46: status changes by `halt` or by a fatal fault, whose cause is its instruction's. -/
theorem statusFrame : Obligations.StatusFrame := by
  intro i s t h
  rcases (exec_effect h).status_cases with ⟨hfault, hhalt⟩ | ⟨rfl, rfl⟩ | ⟨c, op, hraises, rfl⟩
  · exact .inl ⟨hfault, .inl hhalt⟩
  · exact .inl ⟨rfl, .inr rfl⟩
  · exact .inr ⟨c, op, rfl, hraises.opcode, hraises.cause_cases⟩

end Sys2Proof

/-! The pc, what an instruction cannot see, and the single instructions whose effect is not a register
write alone. -/

namespace Sys2Proof.Machine

/-- The condition of `jt` and `jf` as a proposition (43_control_flow.md R164). -/
theorem isNonZero_eq_true_iff {x : Word} : isNonZero x = true ↔ x ≠ 0 := by
  simp [isNonZero, ← BitVec.toNat_inj]

theorem isNonZero_eq_false_iff {x : Word} : isNonZero x = false ↔ x = 0 := by
  simp [isNonZero, ← BitVec.toNat_inj]

/-- A taken jump is a `jmp`, a `jt` of a non-zero or a `jf` of a zero condition, to a target that the
last operand resolves to (43_control_flow.md R162, R164, R166). -/
theorem Jumps.target_cases {s : State} {i : Instr} {target : Word} (h : Jumps s i target) :
    (∃ a, i = .jmp a ∧ val s a = some target) ∨
    ∃ a b x, (i = .jt a b ∧ x ≠ 0 ∨ i = .jf a b ∧ x = 0) ∧
      val s a = some x ∧ val s b = some target := by
  cases h with
  | jmp ha => exact .inl ⟨_, rfl, ha⟩
  | jt ha hb hx => exact .inr ⟨_, _, _, .inl ⟨rfl, isNonZero_eq_true_iff.mp hx⟩, ha, hb⟩
  | jf ha hb hx => exact .inr ⟨_, _, _, .inr ⟨rfl, isNonZero_eq_false_iff.mp hx⟩, ha, hb⟩

/-! Effects in a state that differs where the instruction does not look -/

theorem Writes.congr {s s' : State} {i : Instr} {d : RegIndex} {v : Word}
    (h : Writes s i d v) (hreg : s'.reg = s.reg) (hmem : s'.mem = s.mem) : Writes s' i d v := by
  have hval := val_of_reg_eq hreg
  cases h with
  | set ha hb => exact .set ha ((hval _).trans hb)
  | not ha hb => exact .not ha ((hval _).trans hb)
  | eq ha hb hc => exact .eq ha ((hval _).trans hb) ((hval _).trans hc)
  | gt ha hb hc => exact .gt ha ((hval _).trans hb) ((hval _).trans hc)
  | add ha hb hc => exact .add ha ((hval _).trans hb) ((hval _).trans hc)
  | mult ha hb hc => exact .mult ha ((hval _).trans hb) ((hval _).trans hc)
  | mod ha hb hc hnz => exact .mod ha ((hval _).trans hb) ((hval _).trans hc) hnz
  | and ha hb hc => exact .and ha ((hval _).trans hb) ((hval _).trans hc)
  | or ha hb hc => exact .or ha ((hval _).trans hb) ((hval _).trans hc)
  | rmem ha hb hx => exact hmem ▸ .rmem ha ((hval _).trans hb) hx

theorem Jumps.congr {s s' : State} {i : Instr} {target : Word} (h : Jumps s i target)
    (hreg : s'.reg = s.reg) : Jumps s' i target := by
  have hval := val_of_reg_eq hreg
  cases h with
  | jmp ha => exact .jmp ((hval _).trans ha)
  | jt ha hb hx => exact .jt ((hval _).trans ha) ((hval _).trans hb) hx
  | jf ha hb hx => exact .jf ((hval _).trans ha) ((hval _).trans hb) hx

theorem Passes.congr {s s' : State} {i : Instr} (h : Passes s i) (hreg : s'.reg = s.reg) :
    Passes s' i := by
  have hval := val_of_reg_eq hreg
  cases h with
  | noop => exact .noop
  | jt ha hb hx => exact .jt ((hval _).trans ha) ((hval _).trans hb) hx
  | jf ha hb hx => exact .jf ((hval _).trans ha) ((hval _).trans hb) hx

/-- A fatal fault is taken whatever the output trace holds. -/
theorem Raises.with_output {s : State} {i : Instr} {c : Cause} {op : Word} (o : List Word)
    (h : Raises s i c op) : Raises { s with output := o } i c op := by
  cases h with
  | push ha h => exact .push ha h
  | call ha h => exact .call ha h
  | pop ha h => exact .pop ha h
  | ret h => exact .ret h
  | mod ha hb hc h => exact .mod ha hb hc h
  | rmem ha hb h => exact .rmem ha hb h
  | wmem ha hb h => exact .wmem ha hb h

/-- An effect is the same whatever the output trace holds, and appends the same words to it. -/
theorem Effect.with_output {s t : State} {i : Instr} (o : List Word) (h : Effect s i t) :
    (t.output = s.output ∧ Effect { s with output := o } i { t with output := o }) ∨
    ∃ w, t.output = s.output ++ [w] ∧
      Effect { s with output := o } i { t with output := o ++ [w] } := by
  cases h with
  | emit ha => exact .inr ⟨_, rfl, .emit ha⟩
  | skip hres => exact .inl ⟨rfl, .skip hres⟩
  | fatal hr => exact .inl ⟨rfl, .fatal (hr.with_output o)⟩
  | write hw => exact .inl ⟨rfl, .write (hw.congr rfl rfl)⟩
  | jump hj => exact .inl ⟨rfl, .jump (hj.congr rfl)⟩
  | pass hp => exact .inl ⟨rfl, .pass (hp.congr rfl)⟩
  | halt => exact .inl ⟨rfl, .halt⟩
  | push ha hroom => exact .inl ⟨rfl, .push ha hroom⟩
  | pop hd hs => exact .inl ⟨rfl, .pop hd hs⟩
  | call ha hroom => exact .inl ⟨rfl, .call ha hroom⟩
  | ret hs => exact .inl ⟨rfl, .ret hs⟩
  | store ha hb hx => exact .inl ⟨rfl, .store ha hb hx⟩
  | receive hd hin => exact .inl ⟨rfl, .receive hd hin⟩

/-- A step is the same whatever the output trace holds: the fetch phases do not look at it, and the
effect of the fetched instruction appends the same words to it. -/
theorem step_with_output {s t : State} (o : List Word) (h : step s = .next t) :
    (t.output = s.output ∧ step { s with output := o } = .next { t with output := o }) ∨
    ∃ w, t.output = s.output ++ [w] ∧
      step { s with output := o } = .next { t with output := o ++ [w] } := by
  obtain ⟨hrun, ⟨hpc, rfl⟩ | ⟨c, op, hfetch, rfl⟩ | ⟨i, hfetch, heff⟩⟩ := step_next h
  · exact .inl ⟨rfl, step_of_pc_outside (s := { s with output := o }) hrun hpc⟩
  · exact .inl ⟨rfl, step_of_fetch_failed (s := { s with output := o }) hrun hfetch⟩
  · have hstep : step { s with output := o } = exec i { s with output := o } :=
      step_of_fetch_instr hrun hfetch
    rw [hstep]
    rcases heff.with_output o with ⟨hout, heff'⟩ | ⟨w, hout, heff'⟩
    · exact .inl ⟨hout, heff'.exec_eq⟩
    · exact .inr ⟨w, hout, heff'.exec_eq⟩

/-- The effect of an instruction other than `push`, `pop`, `call` and `ret` leaves the stack as it is
and is the same on any other stack (10_state.md R33). -/
theorem Effect.with_stack {s t : State} {i : Instr} (st : List Word) (h : Effect s i t)
    (hpush : ∀ a, i ≠ .push a) (hpop : ∀ a, i ≠ .pop a) (hcall : ∀ a, i ≠ .call a)
    (hret : i ≠ .ret) :
    t.stack = s.stack ∧ Effect { s with stack := st } i { t with stack := st } := by
  cases h with
  | fatal hr =>
    refine ⟨rfl, .fatal ?_⟩
    cases hr with
    | push => cases hpush _ rfl
    | pop => cases hpop _ rfl
    | call => cases hcall _ rfl
    | ret => cases hret rfl
    | mod ha hb hc hzero => exact .mod ha hb hc hzero
    | rmem ha hb hx => exact .rmem ha hb hx
    | wmem ha hb hx => exact .wmem ha hb hx
  | push => cases hpush _ rfl
  | pop => cases hpop _ rfl
  | call => cases hcall _ rfl
  | ret => cases hret rfl
  | skip hres => exact ⟨rfl, .skip hres⟩
  | write hw => exact ⟨rfl, .write (hw.congr rfl rfl)⟩
  | jump hj => exact ⟨rfl, .jump (hj.congr rfl)⟩
  | pass hp => exact ⟨rfl, .pass (hp.congr rfl)⟩
  | halt => exact ⟨rfl, .halt⟩
  | store ha hb hx => exact ⟨rfl, .store ha hb hx⟩
  | emit ha => exact ⟨rfl, .emit ha⟩
  | receive hd hin => exact ⟨rfl, .receive hd hin⟩

end Sys2Proof.Machine

namespace Sys2Proof

open Machine

/-- Settles O47: an effect moves the pc past the instruction's width, except for the jumps, `call` and
`ret`, which load it, and a fatal fault, which leaves it. -/
theorem pcAfterAnInstruction : Obligations.PcAfterAnInstruction := by
  intro i s t h
  cases exec_effect h with
  | skip | write | pass | halt | push | pop | store | emit | receive => exact .inl rfl
  | jump hj =>
    rcases hj.target_cases with ⟨a, hi, ha⟩ | hcond
    · exact .inr (.inl ⟨a, .inl hi, ha⟩)
    · exact .inr (.inr (.inl hcond))
  | call ha => exact .inr (.inl ⟨_, .inr rfl, ha⟩)
  | ret hs => exact .inr (.inr (.inr (.inl ⟨rfl, _, hs⟩)))
  | fatal => exact .inr (.inr (.inr (.inr ⟨rfl, rfl, _, _, rfl⟩)))

/-- Settles O48: a step has the same answer with any trace, whether it goes on or waits. -/
theorem outputTraceIsNeverRead : Obligations.OutputTraceIsNeverRead := by
  intro s o
  refine ⟨fun t h => ?_, fun f h => ?_⟩
  · rcases step_with_output o h with ⟨hout, h'⟩ | ⟨w, hout, h'⟩
    · exact ⟨[], by rw [hout, List.append_nil], by rw [List.append_nil]; exact h'⟩
    · exact ⟨[w], hout, h'⟩
  · rcases step_outcome s with ⟨t, e⟩ | ⟨e, hhalt⟩ | ⟨e, hrun, hin, a, d, hfetch, hd⟩
    · cases e.symm.trans h
    · cases e.symm.trans h
      exact step_of_halted hhalt
    · cases e.symm.trans h
      exact (step_of_fetch_instr (s := { s with output := o }) hrun hfetch).trans
        (exec_inp_of_nil hd hin)

/-- Settles O49: every effect of the other instructions is the same on another stack, and so is the
wait of an `in`. -/
theorem stackIsSeenByFourInstructions : Obligations.StackIsSeenByFourInstructions := by
  intro i s st hi hret
  refine ⟨fun t h => ?_, fun f h => ?_⟩
  · obtain ⟨hstack, heff⟩ := (exec_effect h).with_stack st (fun a => (hi a).1)
      (fun a => (hi a).2.1) (fun a => (hi a).2.2) hret
    exact ⟨hstack, heff.exec_eq⟩
  · obtain ⟨rfl, hin, a, d, rfl, hd⟩ := exec_fault h
    exact exec_inp_of_nil hd hin

/-- Settles O42: the word supplied is the first of an input that was empty, and the step fetches the
same `in` again, which now receives it. -/
theorem waitingInResumes : Obligations.WaitingInResumes := by
  intro s h w
  obtain ⟨hrun, hin, a, d, hfetch, hd⟩ := step_inputWait h
  obtain ⟨-, -, hreg⟩ := words_of_fetch_inp hfetch hd
  refine ⟨d, hreg, ?_⟩
  have hinput : (s.supply w).input = w :: s.input := by simp [State.supply, hin]
  exact (step_of_fetch_instr (s := s.supply w) hrun hfetch).trans
    (Effect.receive hd hinput).exec_eq

/-- Settles O51: the `call` leaves the return address behind the caller's stack, which is what `ret`
takes from any state that has that stack. -/
theorem retReturnsBehindTheCall : Obligations.RetReturnsBehindTheCall := by
  intro a s u x ha hroom
  refine ⟨_, (Effect.call ha (State.stackFull_eq_false_iff.mpr hroom)).exec_eq, rfl, fun hs => ?_⟩
  exact (Effect.ret hs).exec_eq

/-! The single instructions -/

/-- Settles O16: with its operands resolved `set` is a register write, otherwise the soft skip. -/
theorem setCopiesValue : Obligations.SetCopiesValue :=
  fun _ _ _ => ⟨rfl, fun _ _ ha hb => (Writes.set ha hb).exec_eq, onDV_of_unresolved _⟩

/-- Settles O17: the stack has room or is full, and a value that does not resolve is skipped. -/
theorem pushAppendsValue : Obligations.PushAppendsValue := by
  refine fun a s => ⟨rfl, fun x ha => ⟨fun hroom => ?_, fun n hcap hle => ?_⟩, onV_of_unresolved _⟩
  · exact exec_push_of_room ha (State.stackFull_eq_false_iff.mpr hroom)
  · exact (Raises.push ha (State.stackFull_iff.mpr ⟨n, hcap, hle⟩)).exec_eq

/-- Settles O18: the stack has a top or is empty, and a destination that does not resolve is skipped. -/
theorem popTakesTheTop : Obligations.PopTakesTheTop := by
  refine fun a s => ⟨rfl, fun d hd => ⟨fun rest v hs => ?_, fun hempty => ?_⟩, onD_of_unresolved _⟩
  · exact exec_pop_of_append hd hs
  · exact (Raises.pop hd hempty).exec_eq

/-- Settles O21: the state `halt` answers is halted, so it has no step. -/
theorem haltStopsTheMachine : Obligations.HaltStopsTheMachine := by
  refine ⟨rfl, fun s => ⟨rfl, fun t h => step_of_halted ?_⟩⟩
  cases h
  rfl

/-- Settles O22: a target above 32767 leaves a running machine where the step is the halt guard. -/
theorem jmpLoadsTarget : Obligations.JmpLoadsTarget :=
  fun _ s => ⟨rfl, fun x ha => ⟨(Jumps.jmp ha).exec_eq,
    fun hrun hx => step_of_pc_outside (s := { s with pc := x }) hrun hx⟩, onV_of_unresolved _⟩

/-- Settles O23: a non-zero condition makes the `jt` a jump, zero makes it pass. -/
theorem jtJumpsIfNonZero : Obligations.JtJumpsIfNonZero := by
  refine fun a b s => ⟨rfl, fun x y ha hb => ?_, onVV_of_unresolved _⟩
  by_cases hx : x = 0
  · rw [if_neg (not_not.mpr hx)]
    exact (Passes.jt ha hb (isNonZero_eq_false_iff.mpr hx)).exec_eq
  · rw [if_pos hx]
    exact (Jumps.jt ha hb (isNonZero_eq_true_iff.mpr hx)).exec_eq

/-- Settles O24: a zero condition makes the `jf` a jump, any other makes it pass. -/
theorem jfJumpsIfZero : Obligations.JfJumpsIfZero := by
  refine fun a b s => ⟨rfl, fun x y ha hb => ?_, onVV_of_unresolved _⟩
  by_cases hx : x = 0
  · rw [if_pos hx]
    exact (Jumps.jf ha hb (isNonZero_eq_false_iff.mpr hx)).exec_eq
  · rw [if_neg hx]
    exact (Passes.jf ha hb (isNonZero_eq_true_iff.mpr hx)).exec_eq

/-- Settles O25: the stack has room for the return address or is full, and a target that does not
resolve is skipped. -/
theorem callPushesReturnAddress : Obligations.CallPushesReturnAddress := by
  refine fun a s => ⟨rfl, fun x ha => ⟨fun hroom => ?_, fun n hcap hle => ?_⟩, onV_of_unresolved _⟩
  · exact (Effect.call ha (State.stackFull_eq_false_iff.mpr hroom)).exec_eq
  · exact (Raises.call ha (State.stackFull_iff.mpr ⟨n, hcap, hle⟩)).exec_eq

/-- Settles O26: the stack has a top or is empty. -/
theorem retPopsThePc : Obligations.RetPopsThePc :=
  ⟨rfl, fun _ => ⟨fun _ _ hs => (Effect.ret hs).exec_eq, fun hempty => (Raises.ret hempty).exec_eq⟩⟩

/-- Settles O30: a non-zero divisor makes the `mod` a register write, zero a fatal fault. -/
theorem modLeavesRemainder : Obligations.ModLeavesRemainder := by
  refine fun a b c s => ⟨rfl, fun d x y ha hb hc => ⟨fun hnz => ?_, fun hzero => ?_⟩,
    onDVV_of_unresolved _⟩
  · have hnz : y.toNat ≠ 0 := fun h => hnz (BitVec.eq_of_toNat_eq h)
    exact (Writes.mod ha hb hc hnz).exec_eq
  · exact (Raises.mod ha hb hc (by rw [hzero]; rfl)).exec_eq

/-- Settles O36: an address of an existing cell makes the `rmem` a register write, any other a fatal
fault. -/
theorem rmemLoadsTheCell : Obligations.RmemLoadsTheCell :=
  fun _ _ _ => ⟨rfl, fun _ _ ha hb => ⟨fun hx => (Writes.rmem ha hb (Nat.lt_succ_of_le hx)).exec_eq,
    fun hx => (Raises.rmem ha hb hx).exec_eq⟩, onDV_of_unresolved _⟩

/-- Settles O37: an address of an existing cell makes the `wmem` a write of canonical memory, any other
a fatal fault. -/
theorem wmemStoresTheWord : Obligations.WmemStoresTheWord := by
  refine fun a b s => ⟨rfl, fun x y ha hb => ⟨fun hx hwf => ?_, fun hx => ?_⟩, onVV_of_unresolved _⟩
  · refine ⟨_, exec_wmem_of_inMemory ha hb (Nat.lt_succ_of_le hx), ?_, fun adr hne => ?_⟩
    · rw [Memory.read_write hwf, if_pos rfl]
    · rw [Memory.read_write hwf, if_neg hne]
  · exact (Raises.wmem ha hb hx).exec_eq

/-- Settles O40: with its operand resolved `out` emits its value, otherwise it is the soft skip. -/
theorem outEmitsOneWord : Obligations.OutEmitsOneWord :=
  fun _ _ => ⟨rfl, fun _ ha => (Effect.emit ha).exec_eq, onV_of_unresolved _⟩

/-- Settles O41: the input has a first word or is empty, and a destination that does not resolve is
skipped. -/
theorem inTakesOneWord : Obligations.InTakesOneWord :=
  fun _ _ => ⟨rfl, fun _ hd => ⟨fun _ _ hin => (Effect.receive hd hin).exec_eq, exec_inp_of_nil hd⟩,
    onD_of_unresolved _⟩

/-! The step where it runs no instruction -/

/-- Settles O7: `step` tests `halted` before anything else. -/
theorem haltedMachineHasNoStep : Obligations.HaltedMachineHasNoStep :=
  fun _ => step_of_halted

/-- Settles O8: the fetch phases find the pc outside memory. -/
theorem haltGuardStops : Obligations.HaltGuardStops :=
  fun _ => step_of_pc_outside

/-- Settles O9: an opcode word above 21 has no row in the opcode map. -/
theorem decodeFaultTaken : Obligations.DecodeFaultTaken :=
  fun _ hrun hpc hop => step_of_lookup_none hrun hpc (lookupOpcode_eq_none hop)

/-- Settles O10: the row is found, and its last operand word lies beyond memory. -/
theorem operandBeyondMemoryFaults : Obligations.OperandBeyondMemoryFaults := by
  intro s sh hrun hpc hop hend
  refine step_of_fetch_failed hrun ?_
  simp only [fetch, if_neg (Nat.not_lt.mpr hpc), hop, if_pos hend]

end Sys2Proof

/-! Canonical memories: the list is determined by what is read from it. -/

namespace Sys2Proof.Machine

/-- A canonical memory reads at its first address the word listed there, which is not the fill, and so
differs there from a memory whose addresses are all greater. -/
theorem Memory.read_ne_of_lt_all {a : Nat} {v : Word} {m m' : Memory} (h : Memory.wf ((a, v) :: m))
    (hlt : ∀ c ∈ m', a < c.1) : Memory.read ((a, v) :: m) a ≠ m'.read a := by
  have hv : v ≠ Config.noopFill := (h.2 (a, v) List.mem_cons_self).1
  rw [Memory.read_of_lt_all hlt]
  simpa [Memory.read] using hv

/-- In a canonical memory every address is greater than the ones listed before it. -/
theorem Memory.lt_of_mem_tail {c : WordCell} {m : Memory} (h : Memory.wf (c :: m)) :
    ∀ d ∈ m, c.1 < d.1 :=
  (List.pairwise_cons.mp h.1).1

/-- An address below the first one of a canonical memory is below all of them. -/
theorem Memory.lt_all_of_lt_head {c : WordCell} {m : Memory} (h : Memory.wf (c :: m)) {a : Nat}
    (hlt : a < c.1) : ∀ d ∈ c :: m, a < d.1 :=
  List.forall_mem_cons.mpr ⟨hlt, fun d hd => hlt.trans (Memory.lt_of_mem_tail h d hd)⟩

/-- Two canonical memories with the same first cell that read alike also read alike without it. -/
theorem Memory.read_tail_eq {c : WordCell} {m m' : Memory} (h : Memory.wf (c :: m))
    (h' : Memory.wf (c :: m')) (heq : ∀ a, Memory.read (c :: m) a = Memory.read (c :: m') a)
    (a : Nat) : m.read a = m'.read a := by
  by_cases ha : a = c.1
  · subst ha
    rw [Memory.read_of_lt_all (Memory.lt_of_mem_tail h),
      Memory.read_of_lt_all (Memory.lt_of_mem_tail h')]
  · simpa [Memory.read, ha] using heq a

end Sys2Proof.Machine

/-! The load of the program image, and that there is one load at most. -/

namespace Sys2Proof.Machine

/-- Word k of an image is the byte pair at 2k, low byte first (70_reset_and_hazards.md R275). -/
theorem toNat_getD_wordsOfBytes (image : List Byte) (k : Nat) (hk : k < image.length / 2) :
    ((wordsOfBytes image).getD k 0).toNat =
      (image.getD (2 * k) 0).toNat + 256 * (image.getD (2 * k + 1) 0).toNat := by
  induction image using wordsOfBytes.induct generalizing k with
  | case1 lo hi rest ih =>
    cases k with
    | zero =>
      have hlo := lo.isLt
      have hhi := hi.isLt
      have hfits : lo.toNat + 256 * hi.toNat < 2 ^ 16 := by omega
      simpa [wordsOfBytes] using hfits
    | succ k =>
      have hk : k < rest.length / 2 := by
        simp only [List.length_cons] at hk
        omega
      simpa [wordsOfBytes, Nat.mul_succ] using ih k hk
  | case2 x => simp at hk
  | case3 => simp at hk

/-- A fresh machine is as reset left it (70_reset_and_hazards.md R278). -/
theorem State.eq_create_of_fresh {s : State} (h : s.fresh = true) :
    s = State.create s.stackCap s.input := of_decide_eq_true h

/-- The one load of a fresh machine, when the image fits. -/
theorem loadImage_of_fresh {image : List Byte} {s : State} (h : s.fresh = true)
    (hfits : image.length / 2 ≤ Config.memWords) :
    loadImage image s =
      .next { s with mem := Memory.place [] 0 (wordsOfBytes image), loaded := true } := by
  rw [loadImage, if_pos h, if_neg (Nat.not_lt.mpr hfits), State.mem_of_fresh h]

/-- A fresh machine refuses an image that does not fit (70_reset_and_hazards.md R277). -/
theorem loadImage_of_tooLong {image : List Byte} {s : State} (h : s.fresh = true)
    (hlong : Config.memWords < image.length / 2) : loadImage image s = .refused .imageTooLong := by
  rw [loadImage, if_pos h, if_pos hlong]

/-- A machine that was loaded, has moved its pc, is halted, or lists words on its stack or in memory is
not fresh. -/
theorem State.fresh_eq_false {s : State}
    (h : s.loaded = true ∨ s.pc ≠ 0 ∨ s.halted = true ∨ s.stack ≠ [] ∨ s.mem ≠ []) :
    s.fresh = false := by
  by_contra hfresh
  have hreset := State.eq_create_of_fresh (Bool.not_eq_false _ ▸ hfresh)
  rw [hreset] at h
  simp [State.create, State.reset, Config.resetPc] at h

/-- What holds at the start of a run and is kept by every step holds at its end. -/
theorem run_induction {P : State → Prop} (hstep : ∀ s t, P s → step s = .next t → P t) (k : Nat)
    {s u : State} (hs : P s) (h : core.run k s = .next u) : P u := by
  induction k generalizing s with
  | zero =>
    cases h
    exact hs
  | succ k ih =>
    rcases step_outcome s with ⟨t, e⟩ | ⟨e, -⟩ | ⟨e, -⟩
    · exact ih (hstep s t hs e) (by simpa [Host.Core.run, core, e] using h)
    · simp [Host.Core.run, core, e] at h
    · simp [Host.Core.run, core, e] at h

/-- No step changes the record of the load (log 10). -/
theorem step_loaded {s t : State} (h : step s = .next t) : t.loaded = s.loaded := by
  obtain ⟨-, ⟨-, rfl⟩ | ⟨c, op, -, rfl⟩ | ⟨i, -, heff⟩⟩ := step_next h
  · rfl
  · rfl
  · obtain ⟨-, hsame⟩ := heff.stackCap_loaded_eq
    exact hsame

/-- A machine on its way through an empty memory: no cell is listed, so every word is a `noop`, and the
pc is somewhere above 0, at most one beyond the last address. -/
def InNoopFill (s : State) : Prop := s.mem = [] ∧ 0 < s.pc.toNat ∧ s.pc.toNat ≤ 32768

/-- With no cell listed, the step of a running machine inside memory is a `noop`. -/
theorem step_of_mem_nil {s : State} (hrun : s.halted = false) (hmem : s.mem = [])
    (hpc : s.pc.toNat ≤ 32767) : step s = .next (s.advance 1) := by
  have hop : lookupOpcode (s.mem.read s.pc.toNat) = some (.f0 .noop) := by rw [hmem]; rfl
  exact step_of_lookup_some hrun hop hpc

/-- The `noop` moves the pc of a machine without listed cells up by one, off address 0. -/
theorem inNoopFill_advance {s : State} (hmem : s.mem = []) (hpc : s.pc.toNat ≤ 32767) :
    InNoopFill (s.advance 1) := by
  have hnext : (s.pc + BitVec.ofNat 16 1).toNat = s.pc.toNat + 1 := by
    rw [BitVec.toNat_add, BitVec.toNat_ofNat]
    omega
  refine ⟨hmem, ?_, ?_⟩ <;> rw [State.advance_pc, hnext] <;> omega

/-- No step leads out of the empty memory: below 32768 it is a `noop`, at 32768 the halt guard. -/
theorem InNoopFill.step {s t : State} (hs : InNoopFill s) (h : step s = .next t) :
    InNoopFill t := by
  obtain ⟨hmem, hpos, hle⟩ := hs
  obtain ⟨hrun, -⟩ := step_next h
  by_cases hpc : s.pc.toNat ≤ 32767
  · rw [step_of_mem_nil hrun hmem hpc] at h
    cases h
    exact inNoopFill_advance hmem hpc
  · rw [step_of_pc_outside hrun (Nat.not_le.mp hpc)] at h
    cases h
    exact ⟨hmem, hpos, hle⟩

/-- The first step of a fresh machine is the `noop` at address 0 (log 9). -/
theorem step_of_fresh {s : State} (h : s.fresh = true) :
    step s = .next (s.advance 1) ∧ InNoopFill (s.advance 1) := by
  have hmem := State.mem_of_fresh h
  have hreset := State.eq_create_of_fresh h
  have hrun : s.halted = false := by rw [hreset]; rfl
  have hpc : s.pc.toNat ≤ 32767 := by rw [hreset]; exact Nat.zero_le _
  exact ⟨step_of_mem_nil hrun hmem hpc, inNoopFill_advance hmem hpc⟩

end Sys2Proof.Machine

namespace Sys2Proof

open Machine

/-- Settles O39, by induction on both lists: their first addresses are the same, since the smaller one
would be read as the fill in the other memory; so are the words there, and the rest reads alike. -/
theorem canonicalMemoriesAgree : Obligations.CanonicalMemoriesAgree := by
  intro m
  induction m with
  | nil =>
    intro m' _ h' heq
    cases m' with
    | nil => rfl
    | cons d m' => exact absurd (heq d.1).symm (Memory.read_ne_of_lt_all h' (by simp))
  | cons c m ih =>
    intro m' h h' heq
    cases m' with
    | nil => exact absurd (heq c.1) (Memory.read_ne_of_lt_all h (by simp))
    | cons d m' =>
      obtain ⟨a, v⟩ := c
      obtain ⟨b, w⟩ := d
      rcases lt_trichotomy a b with hlt | rfl | hlt
      · exact absurd (heq a) (Memory.read_ne_of_lt_all h (Memory.lt_all_of_lt_head h' hlt))
      · have hword : v = w := by simpa [Memory.read] using heq a
        subst hword
        rw [ih m' (Memory.wf_tail h) (Memory.wf_tail h') (Memory.read_tail_eq h h' heq)]
      · exact absurd (heq b).symm (Memory.read_ne_of_lt_all h' (Memory.lt_all_of_lt_head h hlt))

/-- Settles O53: the words of the image are placed from address 0 into a memory without listed cells,
so a cell below their number holds its byte pair and every other one the fill. -/
theorem loadPlacesTheImage : Obligations.LoadPlacesTheImage := by
  intro image s hfresh hfits
  have hlen := length_wordsOfBytes image
  have hend : 0 + (wordsOfBytes image).length ≤ Config.memWords := by
    rwa [hlen, Nat.zero_add]
  have hread := Memory.read_place Memory.wf_nil 0 (wordsOfBytes image) hend
  refine ⟨_, loadImage_of_fresh hfresh hfits, Memory.wf_place Memory.wf_nil 0 _ hend,
    fun k hk => ?_, fun k hk => ?_⟩
  · rw [hread, if_pos (by omega), Nat.sub_zero, toNat_getD_wordsOfBytes image k hk]
  · rw [hread, if_neg (by omega), Memory.read_nil]
    rfl

/-- Settles O54: a fresh machine compares the length of the image, and each of the conditions tells a
machine from a fresh one. -/
theorem loadRefusals : Obligations.LoadRefusals :=
  fun _ _ => ⟨loadImage_of_tooLong, fun h => loadImage_of_not_fresh (State.fresh_eq_false h)⟩

/-- Settles O58: the record of the load outlasts every step; and a fresh machine that runs without a
load has left address 0 with its first step and stays above it. -/
theorem oneLoadBeforeTheFirstStep : Obligations.OneLoadBeforeTheFirstStep := by
  refine ⟨fun image s t hload k u hrun image' => ?_, fun s hfresh k u hrun image => ?_⟩
  · obtain ⟨-, -, ht⟩ := loadImage_next hload
    have hloaded : u.loaded = true :=
      run_induction (P := fun s => s.loaded = true) (fun _ _ h e => (step_loaded e).trans h) k
        (by rw [ht]) hrun
    exact loadImage_of_not_fresh (State.fresh_of_loaded hloaded)
  · obtain ⟨hstep, hnoops⟩ := step_of_fresh hfresh
    have hrun : core.run k (s.advance 1) = .next u := by
      simpa [Host.Core.run, core, hstep] using hrun
    obtain ⟨-, hpos, -⟩ := run_induction (P := InNoopFill) (fun _ _ => InNoopFill.step) k hnoops hrun
    have hpc : u.pc ≠ 0 := fun h => by simp [h] at hpos
    exact loadImage_of_not_fresh (State.fresh_eq_false (.inr (.inl hpc)))

end Sys2Proof
